-- ==== Sys2Proof/Word.lean ====
section
/-! DEFINITION. The widths of the CORE's values (R5, R7, R20, R71): bytes, 16-bit words, 12-bit addresses, nibbles, register numbers. -/

namespace Sys2Proof

/-- An 8-bit value: a V register, a timer, a memory cell, the immediate `kk` (R20, R26, R30, R71). -/
abbrev Byte := BitVec 8

/-- A 16-bit value: an instruction word, I, PC, a stack slot (R22, R23, R25, R70). -/
abbrev Word := BitVec 16

/-- The 12-bit field `nnn` (R71). -/
abbrev Addr12 := BitVec 12

/-- The 4-bit count `n` of DRW (R71, R73). -/
abbrev Nibble := BitVec 4

/-- A register number, the fields `x` and `y` (R71): it names one of V0 to VF. -/
abbrev Reg := Fin 16

/-- A key number 0x0 to 0xF (R28). -/
abbrev Key := Fin 16

end Sys2Proof
end

