-- ==== Sys2Proof/Syntax.lean ====
section
/-! DEFINITION. The 35 instructions of R75, one constructor per row of the opcode map, with the fields the row names (R71, R72). -/

namespace Sys2Proof

/-- The instructions of the CORE. `x`, `y` are register numbers, `kk` a byte, `nnn` a 12-bit address, `n` a count (R71, R73).
SHR and SHL carry the field `y` of their words, which their rules ignore (R80, R145). -/
inductive Instr
  | sys (nnn : Addr12)
  | cls
  | ret
  | jp (nnn : Addr12)
  | call (nnn : Addr12)
  | seImm (x : Reg) (kk : Byte)
  | sneImm (x : Reg) (kk : Byte)
  | seReg (x y : Reg)
  | ldImm (x : Reg) (kk : Byte)
  | addImm (x : Reg) (kk : Byte)
  | ldReg (x y : Reg)
  | or (x y : Reg)
  | and (x y : Reg)
  | xor (x y : Reg)
  | addReg (x y : Reg)
  | sub (x y : Reg)
  | shr (x y : Reg)
  | subn (x y : Reg)
  | shl (x y : Reg)
  | sneReg (x y : Reg)
  | ldI (nnn : Addr12)
  | jpV0 (nnn : Addr12)
  | rnd (x : Reg) (kk : Byte)
  | drw (x y : Reg) (n : Nibble)
  | skp (x : Reg)
  | sknp (x : Reg)
  | ldVxDt (x : Reg)
  | ldVxK (x : Reg)
  | ldDtVx (x : Reg)
  | ldStVx (x : Reg)
  | addI (x : Reg)
  | ldF (x : Reg)
  | ldB (x : Reg)
  | ldMemVx (x : Reg)
  | ldVxMem (x : Reg)
deriving DecidableEq, Repr

end Sys2Proof
end

