-- ==== Sys2Proof/WellFormed.lean ====
section
/-! DEFINITION. Which instructions have a word of their own. The operand types carry every range of R71; the one further check is
R76's: the words 0x00E0 and 0x00EE are CLS and RET, so SYS has no encoding with those two addresses. -/

namespace Sys2Proof

/-- An address SYS can carry: neither 0x0E0 (the word is CLS) nor 0x0EE (the word is RET) (R75 row 1, R76). -/
def sysAddrOk (nnn : Addr12) : Bool := nnn != 0x0E0#12 && nnn != 0x0EE#12

/-- The instruction has an encoding (R75, R76). -/
def Instr.wellFormed : Instr → Bool
  | .sys nnn => sysAddrOk nnn
  | .cls => true
  | .ret => true
  | .jp _ => true
  | .call _ => true
  | .seImm _ _ => true
  | .sneImm _ _ => true
  | .seReg _ _ => true
  | .ldImm _ _ => true
  | .addImm _ _ => true
  | .ldReg _ _ => true
  | .or _ _ => true
  | .and _ _ => true
  | .xor _ _ => true
  | .addReg _ _ => true
  | .sub _ _ => true
  | .shr _ _ => true
  | .subn _ _ => true
  | .shl _ _ => true
  | .sneReg _ _ => true
  | .ldI _ => true
  | .jpV0 _ => true
  | .rnd _ _ => true
  | .drw _ _ _ => true
  | .skp _ => true
  | .sknp _ => true
  | .ldVxDt _ => true
  | .ldVxK _ => true
  | .ldDtVx _ => true
  | .ldStVx _ => true
  | .addI _ => true
  | .ldF _ => true
  | .ldB _ => true
  | .ldMemVx _ => true
  | .ldVxMem _ => true

end Sys2Proof
end

