-- ==== Sys2Proof/Decode.lean ====
section
/-! DEFINITION. The decoder of R74 to R79 on a word and on bytes, and the encoder of the opcode map R75. -/

namespace Sys2Proof

/-- Why bytes are no instruction. -/
inductive Reject
  /-- the word has no tag: family 8 with an unlisted low nibble, family E or F with an unlisted low byte (R77, R78, R79) -/
  | noMatch
  /-- fewer than two bytes: no whole word (R70) -/
  | truncated
deriving DecidableEq, Repr

/-- `w[hi:lo]`, the unsigned integer made of bits `hi` down to `lo` of `w` (R6). -/
def bits (w : Word) (hi lo : Nat) : Nat := w.toNat / 2 ^ lo % 2 ^ (hi - lo + 1)

/-- The field `x = w[11:8]` (R71). -/
def fieldX (w : Word) : Reg := Fin.ofNat 16 (bits w 11 8)

/-- The field `y = w[7:4]` (R71). -/
def fieldY (w : Word) : Reg := Fin.ofNat 16 (bits w 7 4)

/-- The field `n = w[3:0]` (R71). -/
def fieldN (w : Word) : Nibble := BitVec.ofNat 4 (bits w 3 0)

/-- The field `kk = w[7:0]` (R71). -/
def fieldKK (w : Word) : Byte := BitVec.ofNat 8 (bits w 7 0)

/-- The field `nnn = w[11:0]` (R71). -/
def fieldNNN (w : Word) : Addr12 := BitVec.ofNat 12 (bits w 11 0)

/-- Family 0: two exact words and the fallback (R74, R76). -/
def decodeFamily0 (w : Word) : Instr :=
  if w = 0x00E0#16 then .cls else if w = 0x00EE#16 then .ret else .sys (fieldNNN w)

/-- Family 8: the second selector is the low nibble (R74, R77). -/
def decodeFamily8 (w : Word) : Except Reject Instr :=
  match bits w 3 0 with
  | 0x0 => .ok (.ldReg (fieldX w) (fieldY w))
  | 0x1 => .ok (.or (fieldX w) (fieldY w))
  | 0x2 => .ok (.and (fieldX w) (fieldY w))
  | 0x3 => .ok (.xor (fieldX w) (fieldY w))
  | 0x4 => .ok (.addReg (fieldX w) (fieldY w))
  | 0x5 => .ok (.sub (fieldX w) (fieldY w))
  | 0x6 => .ok (.shr (fieldX w) (fieldY w))
  | 0x7 => .ok (.subn (fieldX w) (fieldY w))
  | 0xE => .ok (.shl (fieldX w) (fieldY w))
  | _ => .error .noMatch

/-- Family E: the second selector is the low byte (R74, R78). -/
def decodeFamilyE (w : Word) : Except Reject Instr :=
  match bits w 7 0 with
  | 0x9E => .ok (.skp (fieldX w))
  | 0xA1 => .ok (.sknp (fieldX w))
  | _ => .error .noMatch

/-- Family F: the second selector is the low byte (R74, R78). -/
def decodeFamilyF (w : Word) : Except Reject Instr :=
  match bits w 7 0 with
  | 0x07 => .ok (.ldVxDt (fieldX w))
  | 0x0A => .ok (.ldVxK (fieldX w))
  | 0x15 => .ok (.ldDtVx (fieldX w))
  | 0x18 => .ok (.ldStVx (fieldX w))
  | 0x1E => .ok (.addI (fieldX w))
  | 0x29 => .ok (.ldF (fieldX w))
  | 0x33 => .ok (.ldB (fieldX w))
  | 0x55 => .ok (.ldMemVx (fieldX w))
  | 0x65 => .ok (.ldVxMem (fieldX w))
  | _ => .error .noMatch

/-- `Decode(w)` with the operand fields of `w` (R74, R102): total, a function of the word alone. The last arm is never
reached, since `w[15:12]` is at most 15. -/
def decodeWord (w : Word) : Except Reject Instr :=
  match bits w 15 12 with
  | 0x0 => .ok (decodeFamily0 w)
  | 0x1 => .ok (.jp (fieldNNN w))
  | 0x2 => .ok (.call (fieldNNN w))
  | 0x3 => .ok (.seImm (fieldX w) (fieldKK w))
  | 0x4 => .ok (.sneImm (fieldX w) (fieldKK w))
  | 0x5 => .ok (.seReg (fieldX w) (fieldY w))
  | 0x6 => .ok (.ldImm (fieldX w) (fieldKK w))
  | 0x7 => .ok (.addImm (fieldX w) (fieldKK w))
  | 0x8 => decodeFamily8 w
  | 0x9 => .ok (.sneReg (fieldX w) (fieldY w))
  | 0xA => .ok (.ldI (fieldNNN w))
  | 0xB => .ok (.jpV0 (fieldNNN w))
  | 0xC => .ok (.rnd (fieldX w) (fieldKK w))
  | 0xD => .ok (.drw (fieldX w) (fieldY w) (fieldN w))
  | 0xE => decodeFamilyE w
  | 0xF => decodeFamilyF w
  | _ => .error .noMatch

/-- The word whose bytes are `hi`, at the lower address, and `lo` (R52: big-endian, `w = hi * 256 + lo`). -/
def wordOfBytes (hi lo : Byte) : Word := BitVec.ofNat 16 (hi.toNat * 256 + lo.toNat)

/-- The two bytes of a word in the order memory holds them (R52, R70). -/
def bytesOfWord (w : Word) : List Byte := [BitVec.ofNat 8 (bits w 15 8), BitVec.ofNat 8 (bits w 7 0)]

/-- Decode the instruction at the head of a list of bytes; the rest of the list comes with it (R70, R74). -/
def decode : List Byte → Except Reject (Instr × List Byte)
  | hi :: lo :: rest => (decodeWord (wordOfBytes hi lo)).map (fun i => (i, rest))
  | _ => .error .truncated

/-- Format A, `o n n n` (R72). -/
def formatA (o : Nat) (nnn : Addr12) : Word := BitVec.ofNat 16 (o * 4096 + nnn.toNat)

/-- Format XK, `o x k k` (R72). -/
def formatXK (o : Nat) (x : Reg) (kk : Byte) : Word := BitVec.ofNat 16 (o * 4096 + x.val * 256 + kk.toNat)

/-- Formats XY and XYN, `o x y s` (R72). -/
def formatXY (o : Nat) (x y : Reg) (s : Nat) : Word := BitVec.ofNat 16 (o * 4096 + x.val * 256 + y.val * 16 + s)

/-- Format X, `o x s s` (R72). -/
def formatX (o : Nat) (x : Reg) (ss : Nat) : Word := BitVec.ofNat 16 (o * 4096 + x.val * 256 + ss)

/-- The word of an instruction, from the patterns of the opcode map (R75). The ignored low nibble of families 5 and 9 is 0, as
the assembler emits it (R80). -/
def encodeWord : Instr → Word
  | .sys nnn => formatA 0x0 nnn
  | .cls => 0x00E0#16
  | .ret => 0x00EE#16
  | .jp nnn => formatA 0x1 nnn
  | .call nnn => formatA 0x2 nnn
  | .seImm x kk => formatXK 0x3 x kk
  | .sneImm x kk => formatXK 0x4 x kk
  | .seReg x y => formatXY 0x5 x y 0x0
  | .ldImm x kk => formatXK 0x6 x kk
  | .addImm x kk => formatXK 0x7 x kk
  | .ldReg x y => formatXY 0x8 x y 0x0
  | .or x y => formatXY 0x8 x y 0x1
  | .and x y => formatXY 0x8 x y 0x2
  | .xor x y => formatXY 0x8 x y 0x3
  | .addReg x y => formatXY 0x8 x y 0x4
  | .sub x y => formatXY 0x8 x y 0x5
  | .shr x y => formatXY 0x8 x y 0x6
  | .subn x y => formatXY 0x8 x y 0x7
  | .shl x y => formatXY 0x8 x y 0xE
  | .sneReg x y => formatXY 0x9 x y 0x0
  | .ldI nnn => formatA 0xA nnn
  | .jpV0 nnn => formatA 0xB nnn
  | .rnd x kk => formatXK 0xC x kk
  | .drw x y n => formatXY 0xD x y n.toNat
  | .skp x => formatX 0xE x 0x9E
  | .sknp x => formatX 0xE x 0xA1
  | .ldVxDt x => formatX 0xF x 0x07
  | .ldVxK x => formatX 0xF x 0x0A
  | .ldDtVx x => formatX 0xF x 0x15
  | .ldStVx x => formatX 0xF x 0x18
  | .addI x => formatX 0xF x 0x1E
  | .ldF x => formatX 0xF x 0x29
  | .ldB x => formatX 0xF x 0x33
  | .ldMemVx x => formatX 0xF x 0x55
  | .ldVxMem x => formatX 0xF x 0x65

/-- The bytes of an instruction as memory holds them (R52, R70). -/
def encode (i : Instr) : List Byte := bytesOfWord (encodeWord i)

/-- The one 16-bit word that `nbits` bits of the number `w` give, every bit above `nbits` zero: bit 0 is the least significant
bit of the word, as the opcode table numbers it (R6, R70). -/
def tableWord (nbits w : Nat) : Word := BitVec.ofNat 16 (w % 2 ^ nbits)

/-- What the decoder reads from an instruction whose bits are `w`, numbered as the opcode table numbers them. -/
def decodeTableWord (nbits w : Nat) : Option Instr :=
  match decode (bytesOfWord (tableWord nbits w)) with
  | .ok (i, _) => some i
  | .error _ => none

end Sys2Proof
end

