-- ==== Sys2Proof/Machine/Requests.lean ====
section
/-! DEFINITION. The inputs of the CORE (R39): the action requests of the four agents, and who acts when no request is listed. -/

namespace Sys2Proof.Machine

/-- The reset values the spec leaves open (R5, R36, D17, D18). `mem` is `RESET_MEM`: the bytes for 0x050 and up; bytes it does
not list are 0, and bytes beyond 0xFFF are not used. -/
structure ResetParams where
  font  : Vector Byte 80
  i     : Word
  dt    : Byte
  st    : Byte
  stack : Vector Word 16
  mem   : List Byte
deriving DecidableEq, Repr

/-- The action requests of the four agents (R10, R39). A key index is four bits wide, so an index above 15 cannot be
requested (R238, D29). -/
inductive Request
  /-- the host resets the machine; the open reset values are any values (R260) -/
  | reset (p : ResetParams)
  /-- the host loads a program image (R264) -/
  | load (image : List Byte)
  /-- the execution engine runs one instruction (R100) -/
  | step
  /-- the timer agent ticks (R235) -/
  | tick
  /-- the key agent sets one key flag (R238) -/
  | setKey (k : Key) (pressed : Bool)
  /-- the host reads the framebuffer (R37) -/
  | snapshot
deriving DecidableEq, Repr, Inhabited

/-- Who acts when no request is listed (R240; log 4). -/
inductive Agenda
  /-- the execution engine steps, and no other agent acts -/
  | engine
  /-- the agents act in a free order without end: the next action is number `turn` of the free schedule (log 29) -/
  | free (turn : Nat)
deriving DecidableEq, Repr

end Sys2Proof.Machine
end

