-- ==== Sys2Proof/Config.lean ====
section
/-! DEFINITION. What is fixed for one machine: the constants of R5, the two policies the spec leaves open and chooses itself
(R64, R147), the two free inputs of a step (R39, R146, R212), and the free order of the agents (R240). -/

namespace Sys2Proof

/-- What an access beyond address 0xFFF does (R5 `ADDR_POLICY`, R55, R64). -/
inductive AddrPolicy
  /-- the access raises AddressFault (R55, R56): the reading the spec takes -/
  | fault
  /-- the address is reduced modulo 4096 (R64): the reading the spec does not take -/
  | wrap4096
deriving DecidableEq, Repr

/-- What SUB and SUBN store (R5 `SUB_POLICY`, R140, R147). -/
inductive SubPolicy
  /-- the absolute difference (R140): the reading the spec takes -/
  | absdiff
  /-- the difference modulo 256 (R147): the reading the spec does not take -/
  | twosComplement
deriving DecidableEq, Repr

/-- The value of `ADDR_POLICY` the spec takes (R5, R55; log 10). -/
abbrev Config.addrPolicy : AddrPolicy := .fault

/-- The value of `SUB_POLICY` the spec takes (R5, R140; log 11). -/
abbrev Config.subPolicy : SubPolicy := .absdiff

/-- The highest address of the memory array (R50). -/
abbrev Config.topAddr : Nat := 0xFFF

/-- Where a program image is loaded and where PC starts (R5 `LOAD_BASE`, R263, R264). -/
abbrev Config.loadBase : Nat := 0x200

/-- The longest program image: 4096 - 512 bytes (R265). -/
abbrev Config.maxImage : Nat := 3584

/-- The free byte `rnd` of R39(b) and R146, one for each draw number. A FREE VALUE: it has no body, so a claim holds for
every value of every draw (log 5). -/
opaque Config.rnd : Nat → Byte

/-- The free choice `pick` of R39(b) and R212, one for each draw number, reduced to a position in the list of pressed keys
where it is used. A FREE VALUE (log 6). -/
opaque Config.pick : Nat → Nat

/-- The free order of the agents' actions (R10, R240), one action for each turn. A FREE VALUE: every infinite interleaving is one of
its values (log 29). -/
opaque Config.schedule : Nat → Machine.Request

end Sys2Proof
end

