-- ==== Sys2Proof/Machine/Flags.lean ====
section
/-! DEFINITION. The ALU's data results and the flag each flag-setting instruction writes into VF (R21, R130 to R145). -/

namespace Sys2Proof.Machine

/-- A condition as a flag value: a flag write always writes exactly 0 or 1 (R21). -/
def flagOf (c : Bool) : Byte := if c then 1 else 0

/-- The unreduced sum reduced modulo 256 (R132, R137). -/
def addData (a b : Byte) : Byte := BitVec.ofNat 8 (a.toNat + b.toNat)

/-- Carry out of bit 7: the unreduced sum exceeds 255 (R137, R138). -/
def addFlag (a b : Byte) : Byte := flagOf (decide (a.toNat + b.toNat > 255))

/-- The stored result of a subtraction of `b` from `a`: the absolute difference (R140), or the difference modulo 256 under the
alternative policy (R147). -/
def subData : SubPolicy → Byte → Byte → Byte
  | .absdiff, a, b => BitVec.ofNat 8 ((a.toNat : Int) - (b.toNat : Int)).natAbs
  | .twosComplement, a, b => a - b

/-- NOT borrow of `a - b`: 0 if `b > a`, else 1 (R140). -/
def subFlag (a b : Byte) : Byte := flagOf (! decide (b.toNat > a.toNat))

/-- `a >> 1` (R143, R145). -/
def shrData (a : Byte) : Byte := a >>> 1

/-- The bit a right shift shifts out: old bit 0 (R143). -/
def shrFlag (a : Byte) : Byte := a &&& 1

/-- `(a * 2) mod 256` (R144, R145). -/
def shlData (a : Byte) : Byte := BitVec.ofNat 8 (a.toNat * 2)

/-- The bit a left shift shifts out: old bit 7 (R144). -/
def shlFlag (a : Byte) : Byte := flagOf (a.getLsbD 7)

end Sys2Proof.Machine
end

