-- ==== Sys2Proof/Machine/State.lean ====
section
/-! DEFINITION. Everything the spec gives the CORE (R20 to R33), the model's own bookkeeping, and the state after reset (R36). -/

namespace Sys2Proof.Machine

/-- The memory array (R30) as a list of cells: addresses strictly rising, and no entry equal to what an unlisted address reads
as (Memory.wf in Machine/Memory.lean). -/
abbrev Memory := List Host.Cell

/-- The framebuffer: 32 rows of 64 one-bit pixels; `FB[r][c]` is element `c` of element `r` (R29). -/
abbrev Grid := Vector (Vector Bool 64) 32

/-- The five faults (R220). -/
inductive Cause
  /-- the fetched word has no tag (R223) -/
  | decodeFault
  /-- RET with an empty stack (R226) -/
  | stackUnderflow
  /-- CALL with sixteen live entries (R225) -/
  | stackOverflow
  /-- SKP or SKNP with `Vx > 15` (R227) -/
  | keyIndexFault
  /-- an access above 0xFFF (R224) -/
  | addressFault
deriving DecidableEq, Repr

/-- The cause codes (R220). -/
def Cause.code : Cause → Nat
  | .decodeFault => 1
  | .stackUnderflow => 2
  | .stackOverflow => 3
  | .keyIndexFault => 4
  | .addressFault => 5

/-- The record a fault latches (R221). `opcode` is none when the fetch itself faulted; `info` is the last column of R220: the
word, none, the value of `Vx`, or the lowest offending address. -/
structure FaultRecord where
  cause  : Cause
  opcode : Option Word
  pc     : Word
  info   : Option Nat
deriving DecidableEq, Repr

/-- What the last action answered at the CORE's outputs (R11, R38). -/
inductive Output
  /-- nothing: after Reset, Load, SetKey and a Tick without a pulse -/
  | silent
  /-- a Step's outcome `next`: the instruction completed (R11) -/
  | next
  /-- a Step's outcome `wait`: no key is pressed (R11, R211) -/
  | wait
  /-- a Step's outcome `fault` with its record (R11, R222) -/
  | fault (r : FaultRecord)
  /-- the one-shot signal of a Tick that took ST from 1 to 0 (R236) -/
  | tonePulse
  /-- the grid a Snapshot returned (R37) -/
  | snapshot (fb : Grid)
deriving DecidableEq, Repr

/-- The state of the machine: the fields down to `fault` are the spec's, the last five are the model's own. -/
structure State where
  /-- V0 to VF (R20); VF is the flag register (R21) -/
  v        : Vector Byte 16
  /-- the index register I (R22) -/
  i        : Word
  /-- the program counter PC (R23) -/
  pc       : Word
  /-- the number of live stack entries, SP + 1 (R24, D10; log 13) -/
  depth    : Fin 17
  /-- the stack slots (R25) -/
  stack    : Vector Word 16
  /-- the delay timer DT (R26) -/
  dt       : Byte
  /-- the sound timer ST (R27) -/
  st       : Byte
  /-- the key flags (R28) -/
  keys     : Vector Bool 16
  /-- the framebuffer FB (R29) -/
  fb       : Grid
  /-- the memory array Mem (R30) -/
  mem      : Memory
  /-- the fault latch (R31) -/
  fault    : Option FaultRecord
  /-- the model's own: what the last action answered (R38; log 3) -/
  out      : Output
  /-- the model's own: a Step has been taken since Reset, so that a Load is refused (R265; log 16) -/
  started  : Bool
  /-- the model's own: the action requests still to be served, first one first (R39, R240; log 4) -/
  requests : List Request
  /-- the model's own: who acts when no request is listed (R240; log 4) -/
  agenda   : Agenda
  /-- the model's own: how many free inputs have been consumed (R39; log 5) -/
  draws    : Nat
deriving DecidableEq, Repr

/-- The stack pointer as the spec numbers it, -1 to 15 (R24). -/
def State.sp (s : State) : Int := (s.depth.val : Int) - 1

/-- Why a step stops the run. -/
inductive Fault
  /-- raised by `engineStep`, for a Step on a machine whose fault latch is set: it reports the latched record and changes nothing
  (R106, U16). Safe: the run ends where the spec gives the machine no further effect. -/
  | halted (r : FaultRecord)
deriving DecidableEq, Repr

/-- Why a request has no meaning. -/
inductive Refusal
  /-- raised by `exec` for an instruction without a meaning; no instruction is left without one. Safe. -/
  | notModelled (mnemonic : String)
  /-- raised by `load`: the image is longer than 3584 bytes (R265, U6). Safe: the model offers no such move. -/
  | loadTooLong (length : Nat)
  /-- raised by `load`: the fault latch is set (R265, U15). Safe: the model offers no such move. -/
  | loadOnFaulted
  /-- raised by `load`: a Step has been taken since Reset (R265, U15). Safe: the model offers no such move. -/
  | loadAfterStep
deriving DecidableEq, Repr

/-- What one action answers. -/
abbrev Result := Host.Outcome State Fault Refusal

/-- The machine right after `Reset` (R36, R260). I, DT, ST, the stack slots and the memory outside the font have no value in
the spec: 0 is the model's choice, the spec's own simulator default (D18; logs 7 and 8). Memory lists nothing: the font is what
its addresses read as when they are not listed (Machine/Memory.lean; log 9). -/
def State.reset : State where
  v        := Vector.replicate 16 0#8
  i        := 0#16
  pc       := 0x200#16
  depth    := 0
  stack    := Vector.replicate 16 0#16
  dt       := 0#8
  st       := 0#8
  keys     := Vector.replicate 16 false
  fb       := Vector.replicate 32 (Vector.replicate 64 false)
  mem      := []
  fault    := none
  out      := .silent
  started  := false
  requests := []
  agenda   := .engine
  draws    := 0

end Sys2Proof.Machine
end

