-- ==== Sys2Proof/Machine/Memory.lean ====
section
/-! DEFINITION. The memory array: what an unlisted address reads as (R51, R262), reading and writing one cell, the canonical form,
and the access primitives of R55 and R56 with the bounds rule of R57. -/

namespace Sys2Proof.Machine

/-- The customary font, five bytes a glyph, digits 0 to 7 (R262, G2; log 9). -/
def fontLow : List Byte :=
  [0xF0, 0x90, 0x90, 0x90, 0xF0] ++ [0x20, 0x60, 0x20, 0x20, 0x70] ++
  [0xF0, 0x10, 0xF0, 0x80, 0xF0] ++ [0xF0, 0x10, 0xF0, 0x10, 0xF0] ++
  [0x90, 0x90, 0xF0, 0x10, 0x10] ++ [0xF0, 0x80, 0xF0, 0x10, 0xF0] ++
  [0xF0, 0x80, 0xF0, 0x90, 0xF0] ++ [0xF0, 0x10, 0x20, 0x40, 0x40]

/-- The customary font, digits 8 to F (R262, G2; log 9). -/
def fontHigh : List Byte :=
  [0xF0, 0x90, 0xF0, 0x90, 0xF0] ++ [0xF0, 0x90, 0xF0, 0x10, 0xF0] ++
  [0xF0, 0x90, 0xF0, 0x90, 0x90] ++ [0xE0, 0x90, 0xE0, 0x90, 0xE0] ++
  [0xF0, 0x80, 0x80, 0x80, 0xF0] ++ [0xE0, 0x90, 0x90, 0x90, 0xE0] ++
  [0xF0, 0x80, 0xF0, 0x80, 0xF0] ++ [0xF0, 0x80, 0xF0, 0x80, 0x80]

/-- The 80 bytes of `FONT` at their default (R262, D17). -/
def customaryFont : List Byte := fontLow ++ fontHigh

namespace Memory

/-- What an address that memory does not list reads as: the font at 0x000 to 0x04F (R51, R262), 0 above it (`RESET_MEM` at the
spec's simulator default, D18; log 8). -/
def unlisted (a : Nat) : Byte := if a < 80 then customaryFont.getD a 0 else 0

/-- `Mem[a]` (R30). -/
def peek : Memory → Nat → Byte
  | [], a => unlisted a
  | (k, b) :: m, a => if k = a then b else peek m a

/-- A cell in front of a list, unless it holds what an unlisted address reads as. -/
def consCell (a : Nat) (b : Byte) (m : Memory) : Memory := if b = unlisted a then m else (a, b) :: m

/-- `Mem[a] <- b`, keeping the canonical form. -/
def poke : Memory → Nat → Byte → Memory
  | [], a, b => consCell a b []
  | (k, c) :: m, a, b =>
    if a < k then consCell a b ((k, c) :: m)
    else if a = k then consCell a b m
    else (k, c) :: poke m a b

/-- Consecutive cells from `a` up. -/
def pokes : Memory → Nat → List Byte → Memory
  | m, _, [] => m
  | m, a, b :: bs => pokes (poke m a b) (a + 1) bs

/-- The canonical form from address `lo` up: addresses at least `lo`, strictly rising, none above 0xFFF, no entry equal to what
an unlisted address reads as. -/
def wfFrom : Nat → Memory → Bool
  | _, [] => true
  | lo, (k, b) :: m =>
    decide (lo ≤ k) && decide (k ≤ Config.topAddr) && decide (b ≠ unlisted k) && wfFrom (k + 1) m

/-- The canonical form: equal memories are equal lists. -/
def wf (m : Memory) : Bool := wfFrom 0 m

end Memory

/-- The cell an access to the unbounded address `a` reaches, or the address it faults with (R55, R56, R57; the alternative
R64). -/
def resolve : AddrPolicy → Nat → Except Nat Nat
  | .fault, a => if a ≤ Config.topAddr then .ok a else .error a
  | .wrap4096, a => .ok (a % 4096)

/-- `MemRead(a, 1)` (R55): the byte, or the address an AddressFault reports. -/
def memRead (m : Memory) (a : Nat) : Except Nat Byte :=
  match resolve Config.addrPolicy a with
  | .ok k => .ok (m.peek k)
  | .error e => .error e

/-- `MemWrite(a, 1, b)` (R56): the memory after, or the address an AddressFault reports. -/
def memWrite (m : Memory) (a : Nat) (b : Byte) : Except Nat Memory :=
  match resolve Config.addrPolicy a with
  | .ok k => .ok (m.poke k b)
  | .error e => .error e

/-- `n` bytes from `a` up, lowest address first; the first address that faults is the lowest offending one (R57). -/
def memReads (m : Memory) (a : Nat) : Nat → Except Nat (List Byte)
  | 0 => .ok []
  | n + 1 =>
    match memRead m a with
    | .error e => .error e
    | .ok b =>
      match memReads m (a + 1) n with
      | .error e => .error e
      | .ok bs => .ok (b :: bs)

/-- Store bytes from `a` up. An address that faults discards every byte of the group: nothing is written before all the
addresses are known to be good (R57, R222). -/
def memWrites : Memory → Nat → List Byte → Except Nat Memory
  | m, _, [] => .ok m
  | m, a, b :: bs =>
    match memWrite m a b with
    | .error e => .error e
    | .ok m' => memWrites m' (a + 1) bs

end Sys2Proof.Machine
end

