-- ==== Sys2Proof/Machine/Operands.lean ====
section
/-! DEFINITION. The operand forms: a register (R20, R73), the flag register (R21), zero-extended immediates (R73), the base address
in I (R57, R167). -/

namespace Sys2Proof.Machine

/-- VF, the flag register (R21). -/
abbrev regF : Reg := 15

/-- `V[x]` (R8, R73). -/
def State.reg (s : State) (x : Reg) : Byte := s.v[x.val]

/-- `nnn` in a 16-bit register: zero extended (R73). -/
def immAddr (nnn : Addr12) : Word := nnn.setWidth 16

/-- The base of every data access: I as an unbounded integer (R57, R167). The address of byte `j` of an access is this plus
`j`. -/
def State.base (s : State) : Nat := s.i.toNat

/-- The registers V0 up to and including Vx, lowest first: what LD [I], Vx stores (R164). -/
def State.regsUpTo (s : State) (x : Reg) : List Byte := s.v.toList.take (x.val + 1)

end Sys2Proof.Machine
end

