-- ==== Sys2Proof/Machine/Ops.lean ====
section
/-! DEFINITION. The named operations every meaning is built from: register writes, the ways PC ends a step (R104), the stack
(R24, R25), raising a fault (R222), and a memory access that may raise one (R57, R224). -/

namespace Sys2Proof.Machine

/-- `V[x] <- b` (R8). -/
def State.setReg (s : State) (x : Reg) (b : Byte) : State := { s with v := s.v.set x.val b }

/-- A data result and a flag: `Vx` first, VF last (R9, R139). -/
def State.setRegFlag (s : State) (x : Reg) (data flag : Byte) : State := (s.setReg x data).setReg regF flag

/-- `I <- w` (R8). -/
def State.setI (s : State) (w : Word) : State := { s with i := w }

/-- `PC <- pc0 + 2`: a sequential instruction (R104). -/
def State.advance (s : State) : State := { s with pc := s.pc + 2#16 }

/-- `PC <- pc0 + 4` if the condition holds, else `pc0 + 2`: a skip (R104, R114). -/
def State.skipIf (s : State) (c : Bool) : State := { s with pc := s.pc + (if c then 4#16 else 2#16) }

/-- `PC <- target` (R104, R112). -/
def State.jumpTo (s : State) (target : Word) : State := { s with pc := target }

/-- Push: SP is incremented, then the new top slot written; none when all sixteen slots are live (R24, R113). -/
def State.push (s : State) (w : Word) : Option State :=
  if h : s.depth.val < 16 then
    some { s with stack := s.stack.set s.depth.val w, depth := ⟨s.depth.val + 1, by omega⟩ }
  else none

/-- Pop: the top slot is read, then SP decremented; the slot keeps its value; none when the stack is empty (R24, R111). -/
def State.pop (s : State) : Option (Word × State) :=
  if h : 0 < s.depth.val then
    some (s.stack[s.depth.val - 1]'(by omega), { s with depth := ⟨s.depth.val - 1, by omega⟩ })
  else none

/-- The record of a fault raised at this state: PC still holds `pc0` (R221, R222). -/
def State.faultRecord (s : State) (c : Cause) (opcode : Option Word) (info : Option Nat) : FaultRecord :=
  { cause := c, opcode := opcode, pc := s.pc, info := info }

/-- TAKING A FAULT, `raise F(info)` (R222), the CORE's whole trap entry (R229): the latch takes the record, the step's outcome is
`fault` with it, and nothing else changes: no register is saved, no mode changes, PC stays at the instruction. There is no return
from it: only Reset clears the latch (R230), which is the model's `resetRequest` in Machine/Agents.lean. -/
def State.raise (s : State) (c : Cause) (opcode : Option Word) (info : Option Nat) : State :=
  { s with fault := some (s.faultRecord c opcode info), out := .fault (s.faultRecord c opcode info) }

/-- A fault of instruction `i`: its own word is the opcode recorded, since no instruction that can fault has an ignored bit
(R80, R221; log 15). -/
def raiseBy (i : Instr) (c : Cause) (info : Option Nat) (s : State) : Result :=
  .next (s.raise c (some (encodeWord i)) info)

/-- Finish instruction `i` with the result of its memory accesses, or raise AddressFault with the lowest offending address and
no other effect (R57, R222, R224). -/
def withAccess {α : Type} (i : Instr) (s : State) (r : Except Nat α) (finish : α → State) : Result :=
  match r with
  | .ok a => .next (finish a)
  | .error e => raiseBy i .addressFault (some e) s

/-- The step's free byte `rnd` (R39, R146). -/
def State.rnd (s : State) : Byte := Config.rnd s.draws

/-- The step's free choice among the members of a list, `pick` (R39, R212). -/
def State.pickFrom (s : State) (first : Key) (rest : List Key) : Key :=
  (first :: rest)[Config.pick s.draws % (rest.length + 1)]'(by
    simpa using Nat.mod_lt _ (Nat.succ_pos rest.length))

/-- A free input has been consumed: the next draw is another one (R39). -/
def State.consumeDraw (s : State) : State := { s with draws := s.draws + 1 }

end Sys2Proof.Machine
end

