-- ==== Sys2Proof/Machine/Agents.lean ====
section
/-! DEFINITION. The actions of the timer agent (R235, R236), the key agent (R238) and the host (R37, R260, R264, R265). -/

namespace Sys2Proof.Machine

/-- A timer counts down and stops at 0 (R234, R235). -/
def countDown (t : Byte) : Byte := if t.toNat > 0 then t - 1 else t

/-- `Tick`: both timers count down, and the one-shot tone signal is emitted exactly when ST was 1 (R235, R236). -/
def tick (s : State) : State :=
  { s with dt := countDown s.dt, st := countDown s.st, out := if s.st = 1 then .tonePulse else .silent }

/-- `SetKey(k, pressed)` (R238). -/
def setKey (k : Key) (pressed : Bool) (s : State) : State := { s with keys := s.keys.set k.val pressed, out := .silent }

/-- `Snapshot`: the grid, and nothing changes (R37). -/
def snapshot (s : State) : State := { s with out := .snapshot s.fb }

/-- `Load(image)`: the bytes at 0x200 up (R264); refused when the image is longer than 3584 bytes, on a faulted machine, and
after the first Step (R265). -/
def load (image : List Byte) (s : State) : Result :=
  if image.length > Config.maxImage then .refused (.loadTooLong image.length)
  else if s.fault.isSome then .refused .loadOnFaulted
  else if s.started then .refused .loadAfterStep
  else .next { s with mem := s.mem.pokes Config.loadBase image, out := .silent }

/-- The reset values at the spec's simulator defaults (D17, D18; logs 7, 8, 9). -/
def ResetParams.default : ResetParams where
  font  := ⟨customaryFont.toArray, by decide⟩
  i     := 0#16
  dt    := 0#8
  st    := 0#8
  stack := Vector.replicate 16 0#16
  mem   := []

/-- Memory after a reset with these values: the font at 0x000 to 0x04F, `RESET_MEM` from 0x050 to 0xFFF (R36, R262). -/
def ResetParams.memory (p : ResetParams) : Memory :=
  (Memory.pokes [] 0 p.font.toList).pokes 0x50 (p.mem.take 4016)

/-- The machine after `Reset` for any values of the open parameters (R36, R260). -/
def resetWith (p : ResetParams) : State :=
  { State.reset with i := p.i, dt := p.dt, st := p.st, stack := p.stack, mem := p.memory }

/-- `Reset` as a request: every piece of the CORE's state is put at its reset value; the actions still to come and the count of
free inputs consumed are not the CORE's and stay (R260; logs 4, 5). -/
def resetRequest (p : ResetParams) (s : State) : State :=
  { resetWith p with requests := s.requests, agenda := s.agenda, draws := s.draws }

/-- One driver tick of the reference schedule: key updates, one Step, one Snapshot, one Tick (R241). -/
def driverTick (updates : List (Key × Bool)) : List Request :=
  updates.map (fun u => .setKey u.1 u.2) ++ [.step, .snapshot, .tick]

end Sys2Proof.Machine
end

