-- ==== Sys2Proof/Machine/Alu.lean ====
section
/-! DEFINITION. Loads, arithmetic and logic (42_alu.md). Operands are read from the state before the instruction, then `Vx` is
written, then VF (R9, R139); every instruction ends with PC advanced by 2 and none can fault. -/

namespace Sys2Proof.Machine

/-- LD Vx, kk (R131). -/
def execLdImm (x : Reg) (kk : Byte) (s : State) : Result := .next (s.setReg x kk).advance

/-- ADD Vx, kk: no flag (R132). -/
def execAddImm (x : Reg) (kk : Byte) (s : State) : Result := .next (s.setReg x (addData (s.reg x) kk)).advance

/-- LD Vx, Vy (R133). -/
def execLdReg (x y : Reg) (s : State) : Result := .next (s.setReg x (s.reg y)).advance

/-- OR Vx, Vy: no flag (R134). -/
def execOr (x y : Reg) (s : State) : Result := .next (s.setReg x (s.reg x ||| s.reg y)).advance

/-- AND Vx, Vy: no flag (R135). -/
def execAnd (x y : Reg) (s : State) : Result := .next (s.setReg x (s.reg x &&& s.reg y)).advance

/-- XOR Vx, Vy: no flag (R136). -/
def execXor (x y : Reg) (s : State) : Result := .next (s.setReg x (s.reg x ^^^ s.reg y)).advance

/-- ADD Vx, Vy: VF is the carry (R137). -/
def execAddReg (x y : Reg) (s : State) : Result :=
  .next (s.setRegFlag x (addData (s.reg x) (s.reg y)) (addFlag (s.reg x) (s.reg y))).advance

/-- SUB Vx, Vy: VF is NOT borrow of `Vx - Vy` (R141). -/
def execSub (x y : Reg) (s : State) : Result :=
  .next (s.setRegFlag x (subData Config.subPolicy (s.reg x) (s.reg y)) (subFlag (s.reg x) (s.reg y))).advance

/-- SUBN Vx, Vy: VF is NOT borrow of `Vy - Vx` (R142). -/
def execSubn (x y : Reg) (s : State) : Result :=
  .next (s.setRegFlag x (subData Config.subPolicy (s.reg y) (s.reg x)) (subFlag (s.reg y) (s.reg x))).advance

/-- SHR Vx: VF is old bit 0; `y` is ignored (R143, R145). -/
def execShr (x : Reg) (s : State) : Result := .next (s.setRegFlag x (shrData (s.reg x)) (shrFlag (s.reg x))).advance

/-- SHL Vx: VF is old bit 7; `y` is ignored (R144, R145). -/
def execShl (x : Reg) (s : State) : Result := .next (s.setRegFlag x (shlData (s.reg x)) (shlFlag (s.reg x))).advance

/-- `V[x] <- r & kk` for a given random byte `r` (R146). -/
def rndWith (r : Byte) (x : Reg) (kk : Byte) (s : State) : State := (s.setReg x (r &&& kk)).advance

/-- RND Vx, kk: the byte is the step's free input, which is consumed (R146; log 5). -/
def execRnd (x : Reg) (kk : Byte) (s : State) : Result := .next (rndWith s.rnd x kk s).consumeDraw

end Sys2Proof.Machine
end

