-- ==== Sys2Proof/Machine/Control.lean ====
section
/-! DEFINITION. Control transfer (41_control.md): SYS, RET, JP, CALL, the compare skips, JP V0. -/

namespace Sys2Proof.Machine

/-- SYS nnn: a no-op for every `nnn` (R110, D6; log 14). -/
def execSys (s : State) : Result := .next s.advance

/-- RET: PC becomes the popped CALL address plus 2; StackUnderflow when the stack is empty (R111, R226). -/
def execRet (s : State) : Result :=
  match s.pop with
  | some (w, t) => .next (t.jumpTo (w + 2#16))
  | none => raiseBy .ret .stackUnderflow none s

/-- JP nnn (R112). -/
def execJp (nnn : Addr12) (s : State) : Result := .next (s.jumpTo (immAddr nnn))

/-- CALL nnn: the CALL's own address is pushed; StackOverflow when all sixteen slots are live (R113, R225). -/
def execCall (nnn : Addr12) (s : State) : Result :=
  match s.push s.pc with
  | some t => .next (t.jumpTo (immAddr nnn))
  | none => raiseBy (.call nnn) .stackOverflow none s

/-- SE Vx, kk (R114). -/
def execSeImm (x : Reg) (kk : Byte) (s : State) : Result := .next (s.skipIf (s.reg x == kk))

/-- SNE Vx, kk (R115). -/
def execSneImm (x : Reg) (kk : Byte) (s : State) : Result := .next (s.skipIf (s.reg x != kk))

/-- SE Vx, Vy (R116). -/
def execSeReg (x y : Reg) (s : State) : Result := .next (s.skipIf (s.reg x == s.reg y))

/-- SNE Vx, Vy (R117). -/
def execSneReg (x y : Reg) (s : State) : Result := .next (s.skipIf (s.reg x != s.reg y))

/-- JP V0, nnn: the 16-bit sum, not reduced to 12 bits (R118). -/
def execJpV0 (nnn : Addr12) (s : State) : Result :=
  .next (s.jumpTo (BitVec.ofNat 16 (nnn.toNat + (s.reg 0).toNat)))

end Sys2Proof.Machine
end

