-- ==== Sys2Proof/Machine/Display.lean ====
section
/-! DEFINITION. The framebuffer engine (44_display.md): clear, the sprite draw with collision (R183), CLS and DRW. -/

namespace Sys2Proof.Machine

/-- The grid with every pixel 0 (R181). -/
def Grid.clear : Grid := Vector.replicate 32 (Vector.replicate 64 false)

/-- `FB[r][c]` (R8). -/
def Grid.pixel (g : Grid) (r : Fin 32) (c : Fin 64) : Bool := g[r.val][c.val]

/-- `FB[r][c] <- b` (R8). -/
def Grid.setPixel (g : Grid) (r : Fin 32) (c : Fin 64) (b : Bool) : Grid := g.set r.val (g[r.val].set c.val b)

/-- One source bit at a row and a column that are reduced modulo the grid's height and width: the collision test on the old
pixel, then the XOR (R180, R183). -/
def drawBit (row col : Nat) (s : Bool) (acc : Grid × Bool) : Grid × Bool :=
  let r := Fin.ofNat 32 row
  let c := Fin.ofNat 64 col
  let old := acc.1.pixel r c
  (acc.1.setPixel r c (old ^^ s), acc.2 || (s && old))

/-- The eight bits of one sprite row, bit index `i` from 0, most significant bit first (R183). -/
def drawRow (vx row : Nat) (b : Byte) (acc : Grid × Bool) : Grid × Bool :=
  (List.range 8).foldl (fun acc i => drawBit row (vx + i) (b.getLsbD (7 - i)) acc) acc

/-- The sprite rows in order, the first at row `vy` (R183). -/
def drawRows (vx : Nat) : Nat → List Byte → Grid × Bool → Grid × Bool
  | _, [], acc => acc
  | vy, b :: bs, acc => drawRows vx (vy + 1) bs (drawRow vx vy b acc)

/-- `Draw(fb, rows, vx, vy)`: the new grid and the collision bit (R183). -/
def draw (fb : Grid) (rows : List Byte) (vx vy : Nat) : Grid × Bool := drawRows vx vy rows (fb, false)

/-- CLS: VF is not written (R181). -/
def execCls (s : State) : Result := .next { s with fb := Grid.clear }.advance

/-- DRW Vx, Vy, n: `n` rows from I up; VF is the collision, always written, after the grid (R182). -/
def execDrw (x y : Reg) (n : Nibble) (s : State) : Result :=
  withAccess (.drw x y n) s (memReads s.mem s.base n.toNat) fun rows =>
    let d := draw s.fb rows (s.reg x).toNat (s.reg y).toNat
    ({ s with fb := d.1 }.setReg regF (flagOf d.2)).advance

end Sys2Proof.Machine
end

