-- ==== Sys2Proof/Machine/Index.lean ====
section
/-! DEFINITION. The index register and the memory instructions (43_index_memory.md). I is unchanged by every access (R166). -/

namespace Sys2Proof.Machine

/-- LD I, nnn (R160). -/
def execLdI (nnn : Addr12) (s : State) : Result := .next (s.setI (immAddr nnn)).advance

/-- ADD I, Vx: modulo 65536, no flag (R161). -/
def execAddI (x : Reg) (s : State) : Result :=
  .next (s.setI (BitVec.ofNat 16 (s.i.toNat + (s.reg x).toNat))).advance

/-- LD F, Vx: five bytes a glyph, the whole of `Vx` (R162). -/
def execLdF (x : Reg) (s : State) : Result := .next (s.setI (BitVec.ofNat 16 ((s.reg x).toNat * 5))).advance

/-- The decimal digits of a byte, hundreds first, one a byte (R163). -/
def bcdDigits (a : Byte) : List Byte :=
  [BitVec.ofNat 8 (a.toNat / 100), BitVec.ofNat 8 (a.toNat / 10 % 10), BitVec.ofNat 8 (a.toNat % 10)]

/-- LD B, Vx: three digits at I, I + 1, I + 2 (R163). -/
def execLdB (x : Reg) (s : State) : Result :=
  withAccess (.ldB x) s (memWrites s.mem s.base (bcdDigits (s.reg x))) fun m => { s with mem := m }.advance

/-- LD [I], Vx: V0 to Vx at I up (R164). -/
def execLdMemVx (x : Reg) (s : State) : Result :=
  withAccess (.ldMemVx x) s (memWrites s.mem s.base (s.regsUpTo x)) fun m => { s with mem := m }.advance

/-- Bytes into consecutive registers from number `j` up; a byte for which there is no register is dropped, which no instruction
does (R165). -/
def loadRegs : Vector Byte 16 → Nat → List Byte → Vector Byte 16
  | v, _, [] => v
  | v, j, b :: bs => loadRegs (v.setIfInBounds j b) (j + 1) bs

/-- LD Vx, [I]: V0 to Vx from I up, all bytes read before any register is written (R165). -/
def execLdVxMem (x : Reg) (s : State) : Result :=
  withAccess (.ldVxMem x) s (memReads s.mem s.base (x.val + 1)) fun bs => { s with v := loadRegs s.v 0 bs }.advance

end Sys2Proof.Machine
end

