-- ==== Sys2Proof/Machine/KeysTimers.lean ====
section
/-! DEFINITION. Key and timer instructions (45_keys_timers.md). -/

namespace Sys2Proof.Machine

/-- A skip on a key: `skipOn` is applied to the flag of the key numbered `Vx`; KeyIndexFault when `Vx > 15`, with the whole
of `Vx` as the index (R200, R201, R227). -/
def keySkip (i : Instr) (x : Reg) (skipOn : Bool → Bool) (s : State) : Result :=
  if h : (s.reg x).toNat < 16 then .next (s.skipIf (skipOn (s.keys[(s.reg x).toNat]'h)))
  else raiseBy i .keyIndexFault (some (s.reg x).toNat) s

/-- SKP Vx (R200). -/
def execSkp (x : Reg) (s : State) : Result := keySkip (.skp x) x (fun pressed => pressed) s

/-- SKNP Vx (R201). -/
def execSknp (x : Reg) (s : State) : Result := keySkip (.sknp x) x (fun pressed => !pressed) s

/-- LD Vx, DT (R202). -/
def execLdVxDt (x : Reg) (s : State) : Result := .next (s.setReg x s.dt).advance

/-- LD DT, Vx (R203). -/
def execLdDtVx (x : Reg) (s : State) : Result := .next { s with dt := s.reg x }.advance

/-- LD ST, Vx: no tone signal, whatever it writes (R204). -/
def execLdStVx (x : Reg) (s : State) : Result := .next { s with st := s.reg x }.advance

/-- The set `P` of pressed keys, lowest first (R210). -/
def State.pressed (s : State) : List Key := (List.finRange 16).filter fun k => s.keys[k.val]

/-- Store the index of a pressed key and go on (R210). -/
def State.takeKey (s : State) (x : Reg) (k : Key) : State := (s.setReg x (BitVec.ofNat 8 k.val)).advance

/-- LD Vx, K: with no key pressed the outcome is `wait` and nothing is written (R211); with one, its index is stored; with
several, the step's free choice among them is consumed (R210, R212; log 6). -/
def execLdVxK (x : Reg) (s : State) : Result :=
  match s.pressed with
  | [] => .next { s with out := .wait }
  | [k] => .next (s.takeKey x k)
  | k :: ks => .next (s.takeKey x (s.pickFrom k ks)).consumeDraw

end Sys2Proof.Machine
end

