-- ==== Sys2Proof/Machine/Engine.lean ====
section
/-! DEFINITION. The instruction cycle (40_cycle.md) and the serving of one action request (R10, R39). -/

namespace Sys2Proof.Machine

/-- The word at `pc`: the byte at the lower address is the high byte; a fetch above 0xFFE gives the lowest address that lies
beyond memory (R52, R101). -/
def fetch (m : Memory) (pc : Word) : Except Nat Word :=
  match memRead m pc.toNat with
  | .error e => .error e
  | .ok hi =>
    match memRead m (pc.toNat + 1) with
    | .error e => .error e
    | .ok lo => .ok (wordOfBytes hi lo)

/-- The state an instruction runs in: the outcome is `next` unless the instruction says otherwise, and a Step has been taken. -/
def State.beginStep (s : State) : State := { s with out := .next, started := true }

/-- Decode and execute a fetched word; DecodeFault when it has no tag (R100, R103, R223). -/
def runWord (w : Word) (s : State) : Result :=
  match decodeWord w with
  | .ok i => exec i s
  | .error _ => .next (s.raise .decodeFault (some w) (some w.toNat))

/-- `Step` (R100), its checks in the order of R107: the latch, the fetch, the decode, then the instruction's own. -/
def engineStep (s : State) : Result :=
  match s.fault with
  | some r => .fault (.halted r)
  | none =>
    match fetch s.mem s.pc with
    | .error e => .next (s.beginStep.raise .addressFault none (some e))
    | .ok w => runWord w s.beginStep

/-- Serve one action request (R10, R39). -/
def serve : Request → State → Result
  | .reset p, s => .next (resetRequest p s)
  | .load image, s => load image s
  | .step, s => engineStep s
  | .tick, s => .next (tick s)
  | .setKey k pressed, s => .next (setKey k pressed s)
  | .snapshot, s => .next (snapshot s)

/-- The action that is due: the first request listed; with none listed, the engine's Step or the next action of the free schedule, as
the agenda says (R39, R240; logs 4, 29). -/
def State.due (s : State) : Request :=
  match s.requests, s.agenda with
  | r :: _, _ => r
  | [], .engine => .step
  | [], .free turn => Config.schedule turn

/-- The state once the action that is due has been taken off the list or the schedule; nothing of the CORE changes. -/
def State.taken (s : State) : State :=
  match s.requests, s.agenda with
  | _ :: rest, _ => { s with requests := rest }
  | [], .engine => s
  | [], .free turn => { s with agenda := .free (turn + 1) }

/-- Where the next instruction is fetched: PC, or the entry point 0x200 where PC lies beyond the last address a word can be
fetched from (R101, R263). -/
def fetchPoint (s : State) : Word := if s.pc.toNat < Config.topAddr then s.pc else 0x200#16

/-- The state with a word stored where the next action fetches it: the one request listed is that Step, the latch is clear, and
PC is at a fetchable address (log 18). -/
def placeWord (s : State) (w : Word) : State :=
  { s with
    mem      := s.mem.pokes (fetchPoint s).toNat (bytesOfWord w)
    pc       := fetchPoint s
    fault    := none
    requests := [.step] }

end Sys2Proof.Machine
end

