-- ==== Sys2Proof/Machine/Step.lean ====
section
/-! DEFINITION. One step of the machine: the next action (R10, R240). -/

namespace Sys2Proof.Machine

/-- One action: the one that is due is served (R10, R39, R240). -/
def step (s : State) : Host.Outcome State Fault Refusal := serve s.due s.taken

/-- `s` with the instruction whose bits are `w` (the bits above `nbits` zero) stored where `step` fetches its next one. -/
def State.withFetchWord (s : State) (nbits w : Nat) : State := placeWord s (tableWord nbits w)

end Sys2Proof.Machine
end

