-- ==== Sys2Proof/Safety.lean ====
section
/-! DEFINITION. What counts as a safe run, what an instruction may change (the "Writes" lines of the instruction rules and the frame
rule R105), and the invariant every step keeps. -/

namespace Sys2Proof.Machine

/-- The machine has not gone wrong: the fault latch is `none` (R222). -/
abbrev State.running (s : State) : Prop := s.fault = none

/-- `n` steps of the engine all leave the latch clear: a safe run (R222). -/
def SafeFor : Nat → State → Prop
  | 0, s => s.running
  | n + 1, s => s.running ∧ ∃ t, step s = .next t ∧ SafeFor n t

/-- The pieces a state is made of, one for each field. -/
inductive Piece
  | v | i | pc | sp | stack | dt | st | keys | fb | mem | fault | out | started | requests | agenda | draws
deriving DecidableEq, Repr

/-- A piece is the same in two states. Memory is compared through the reading of every byte. -/
def Piece.same : Piece → State → State → Prop
  | .v, s, t => t.v = s.v
  | .i, s, t => t.i = s.i
  | .pc, s, t => t.pc = s.pc
  | .sp, s, t => t.depth = s.depth
  | .stack, s, t => t.stack = s.stack
  | .dt, s, t => t.dt = s.dt
  | .st, s, t => t.st = s.st
  | .keys, s, t => t.keys = s.keys
  | .fb, s, t => t.fb = s.fb
  | .mem, s, t => ∀ a, t.mem.peek a = s.mem.peek a
  | .fault, s, t => t.fault = s.fault
  | .out, s, t => t.out = s.out
  | .started, s, t => t.started = s.started
  | .requests, s, t => t.requests = s.requests
  | .agenda, s, t => t.agenda = s.agenda
  | .draws, s, t => t.draws = s.draws

/-- Every piece that is not in the list is the same in both states. -/
def ChangesOnly (ps : List Piece) (s t : State) : Prop := ∀ p, p ∉ ps → p.same s t

/-- PC has moved by `n`, modulo 65536 (R104). -/
def MovesPc (n : Nat) (s t : State) : Prop := t.pc.toNat = (s.pc.toNat + n) % 65536

/-- Every register outside the given ones reads as before. -/
def RegsKeptBut (changed : Reg → Prop) (s t : State) : Prop := ∀ r, ¬ changed r → t.reg r = s.reg r

/-- The state a fault leaves: the latch and the outcome hold the record, nothing else has changed (R222). -/
def State.latch (s : State) (r : FaultRecord) : State := { s with fault := some r, out := .fault r }

/-- The next action is a Step of the engine, whether it is listed, scheduled, or what the engine does by itself (R240). -/
abbrev State.stepsNext (s : State) : Prop := s.due = .step

/-- The word the next Step fetches, where PC can be fetched from (R52, R101). -/
def State.nextWord (s : State) : Word := wordOfBytes (s.mem.peek s.pc.toNat) (s.mem.peek (s.pc.toNat + 1))

end Sys2Proof.Machine

namespace Sys2Proof

open Sys2Proof.Machine

/-- What the instruction's rule lists under "Writes" (41_control.md to 45_keys_timers.md), and the free inputs it consumes. -/
def Instr.writes : Instr → List Piece
  | .sys _ => [.pc]
  | .cls => [.fb, .pc]
  | .ret => [.pc, .sp]
  | .jp _ => [.pc]
  | .call _ => [.sp, .stack, .pc]
  | .seImm _ _ => [.pc]
  | .sneImm _ _ => [.pc]
  | .seReg _ _ => [.pc]
  | .ldImm _ _ => [.v, .pc]
  | .addImm _ _ => [.v, .pc]
  | .ldReg _ _ => [.v, .pc]
  | .or _ _ => [.v, .pc]
  | .and _ _ => [.v, .pc]
  | .xor _ _ => [.v, .pc]
  | .addReg _ _ => [.v, .pc]
  | .sub _ _ => [.v, .pc]
  | .shr _ _ => [.v, .pc]
  | .subn _ _ => [.v, .pc]
  | .shl _ _ => [.v, .pc]
  | .sneReg _ _ => [.pc]
  | .ldI _ => [.i, .pc]
  | .jpV0 _ => [.pc]
  | .rnd _ _ => [.v, .pc, .draws]
  | .drw _ _ _ => [.fb, .v, .pc]
  | .skp _ => [.pc]
  | .sknp _ => [.pc]
  | .ldVxDt _ => [.v, .pc]
  | .ldVxK _ => [.v, .pc, .draws]
  | .ldDtVx _ => [.dt, .pc]
  | .ldStVx _ => [.st, .pc]
  | .addI _ => [.i, .pc]
  | .ldF _ => [.i, .pc]
  | .ldB _ => [.mem, .pc]
  | .ldMemVx _ => [.mem, .pc]
  | .ldVxMem _ => [.v, .pc]

/-- The V registers the instruction's rule lists under "Writes", VF as a flag among them (R21). -/
def Instr.mayWriteReg : Instr → Reg → Bool
  | .sys _, _ => false
  | .cls, _ => false
  | .ret, _ => false
  | .jp _, _ => false
  | .call _, _ => false
  | .seImm _ _, _ => false
  | .sneImm _ _, _ => false
  | .seReg _ _, _ => false
  | .ldImm x _, r => r == x
  | .addImm x _, r => r == x
  | .ldReg x _, r => r == x
  | .or x _, r => r == x
  | .and x _, r => r == x
  | .xor x _, r => r == x
  | .addReg x _, r => r == x || r == regF
  | .sub x _, r => r == x || r == regF
  | .shr x _, r => r == x || r == regF
  | .subn x _, r => r == x || r == regF
  | .shl x _, r => r == x || r == regF
  | .sneReg _ _, _ => false
  | .ldI _, _ => false
  | .jpV0 _, _ => false
  | .rnd x _, r => r == x
  | .drw _ _ _, r => r == regF
  | .skp _, _ => false
  | .sknp _, _ => false
  | .ldVxDt x, r => r == x
  | .ldVxK x, r => r == x
  | .ldDtVx _, _ => false
  | .ldStVx _, _ => false
  | .addI _, _ => false
  | .ldF _, _ => false
  | .ldB _, _ => false
  | .ldMemVx _, _ => false
  | .ldVxMem x, r => decide (r ≤ x)

/-- How many bytes the instruction stores, from address I up (R163, R164). -/
def Instr.storeLength : Instr → Nat
  | .sys _ => 0
  | .cls => 0
  | .ret => 0
  | .jp _ => 0
  | .call _ => 0
  | .seImm _ _ => 0
  | .sneImm _ _ => 0
  | .seReg _ _ => 0
  | .ldImm _ _ => 0
  | .addImm _ _ => 0
  | .ldReg _ _ => 0
  | .or _ _ => 0
  | .and _ _ => 0
  | .xor _ _ => 0
  | .addReg _ _ => 0
  | .sub _ _ => 0
  | .shr _ _ => 0
  | .subn _ _ => 0
  | .shl _ _ => 0
  | .sneReg _ _ => 0
  | .ldI _ => 0
  | .jpV0 _ => 0
  | .rnd _ _ => 0
  | .drw _ _ _ => 0
  | .skp _ => 0
  | .sknp _ => 0
  | .ldVxDt _ => 0
  | .ldVxK _ => 0
  | .ldDtVx _ => 0
  | .ldStVx _ => 0
  | .addI _ => 0
  | .ldF _ => 0
  | .ldB _ => 3
  | .ldMemVx x => x.val + 1
  | .ldVxMem _ => 0

/-- The instruction stores to address `a` when it runs at this state and does not fault (R57, R163, R164). -/
def Instr.storesTo (i : Instr) (s : State) (a : Nat) : Prop := s.base ≤ a ∧ a < s.base + i.storeLength

end Sys2Proof

namespace Sys2Proof.Machine

/-- A latched record has the form that R221 and R223 to R227 give its cause. -/
def FaultRecord.formed (r : FaultRecord) : Prop :=
  match r.cause with
  | .decodeFault => ∃ w, r.opcode = some w ∧ decodeWord w = .error .noMatch ∧ r.info = some w.toNat
  | .stackUnderflow => r.opcode = some 0x00EE#16 ∧ r.info = none
  | .stackOverflow => ∃ nnn, r.opcode = some (encodeWord (.call nnn)) ∧ r.info = none
  | .keyIndexFault =>
    ∃ x k, (r.opcode = some (encodeWord (.skp x)) ∨ r.opcode = some (encodeWord (.sknp x))) ∧
      r.info = some k ∧ 15 < k ∧ k ≤ 255
  | .addressFault =>
    ∃ a, r.info = some a ∧ 0xFFF < a ∧ a ≤ 0xFFFF ∧ (r.opcode = none → a = max r.pc.toNat 0x1000)

/-- What every step keeps: memory in its canonical form and inside 0x000 to 0xFFF (R30, R56); PC at most 0x10FE, the largest value
a jump can give it (R118); every live stack slot at most 0xFFE, the highest address a word is fetched from (R111); a latched record
that has its cause's form and the PC the machine stopped at (R221, R222). -/
structure State.Inv (s : State) : Prop where
  memory : s.mem.wf = true
  pcBound : s.pc.toNat ≤ 0x10FE
  liveSlots : ∀ k : Fin 16, k.val < s.depth.val → (s.stack[k.val]).toNat ≤ 0xFFE
  latchForm : ∀ r, s.fault = some r → r.formed
  latchPc : ∀ r, s.fault = some r → r.pc = s.pc

/-- Every stack slot that is live after an action was live before it with the same value, or is the PC of a CALL that this action
fetched (R25, R113). -/
def SlotsComeFromCalls (s t : State) : Prop :=
  ∀ k : Fin 16, k.val < t.depth.val →
    (k.val < s.depth.val ∧ t.stack[k.val] = s.stack[k.val]) ∨
    (s.stepsNext ∧ s.pc.toNat ≤ 0xFFE ∧ t.stack[k.val] = s.pc ∧ ∃ nnn, decodeWord s.nextWord = .ok (.call nnn))

end Sys2Proof.Machine
end

