-- ==== Sys2Proof/Certificates/Slice0/Obligations.lean ====
section
/-! DEFINITION. The statements for the provers. Each docstring names the rule of spec/ it formalises. "D<n>" and "derived" say that the
spec marks the point as its own decision (92_eei_decisions.md) or its own inference; "log <n>" names what is the model's. -/

open Sys2Proof Sys2Proof.Machine

/-! ### Encoding -/

/-- Words written out from the patterns of R75 and the source's examples decode to the instructions they stand for, with their
operands (R71, R74; the spec takes the numbers of 28 rows from general knowledge, G1, log 12). -/
def Obligations.SpecWordsDecodeToTheirInstructions : Prop :=
  decodeWord 0x00E0#16 = .ok .cls ∧ decodeWord 0x00EE#16 = .ok .ret ∧ decodeWord 0x00E1#16 = .ok (.sys 0x0E1#12) ∧
  decodeWord 0x1ABC#16 = .ok (.jp 0xABC#12) ∧ decodeWord 0x2300#16 = .ok (.call 0x300#12) ∧
  decode [0x60#8, 0x0A#8] = .ok (.ldImm 0 0x0A#8, []) ∧ decode [0x80#8, 0x14#8] = .ok (.addReg 0 1, []) ∧
  decodeWord 0x5127#16 = .ok (.seReg 1 2) ∧ decodeWord 0xA2F0#16 = .ok (.ldI 0x2F0#12) ∧
  decodeWord 0xD12F#16 = .ok (.drw 1 2 15#4) ∧ decodeWord 0xE39E#16 = .ok (.skp 3) ∧
  decodeWord 0xF865#16 = .ok (.ldVxMem 8) ∧ decodeWord 0x8128#16 = .error .noMatch ∧
  decodeWord 0xE00E#16 = .error .noMatch ∧ decodeWord 0xF075#16 = .error .noMatch

/-- HEADLINE. Decoding the bytes of any well-formed instruction gives it back, with every operand at every value, whatever bytes
follow (R70, R71, R75, R81). -/
def Obligations.DecodingAnEncodedInstructionGivesItBack : Prop :=
  ∀ (i : Instr) (rest : List Byte), i.wellFormed = true →
    decodeWord (encodeWord i) = .ok i ∧ decode (encode i ++ rest) = .ok (i, rest)

/-- A word that decodes is the word of its instruction, but for the low nibble of families 5 and 9, which the decoder ignores and
the encoder writes as 0 (R80(b), the spec's decision D27, log 23); and what it decodes to is well formed (R80, R81, derived by the
spec). -/
def Obligations.EncodingADecodedWordGivesItBack : Prop :=
  ∀ (w : Word) (i : Instr), decodeWord w = .ok i →
    i.wellFormed = true ∧
    ((bits w 15 12 = 0x5 ∨ bits w 15 12 = 0x9) → (encodeWord i).toNat = w.toNat / 16 * 16) ∧
    (¬ (bits w 15 12 = 0x5 ∨ bits w 15 12 = 0x9) → encodeWord i = w)

/-- The opcode map, row by row: a word that a row's mask and match select decodes to the row's instruction with the fields of the
word; the SYS row leaves out the two words of CLS and RET (R71, R75; the spec takes the numbers of 28 rows from general knowledge,
G1, log 12). -/
def Obligations.EveryOpcodeRowSelectsItsInstruction : Prop :=
  ∀ w : Word,
    (w &&& 0xF000#16 = 0x0000#16 → w ≠ 0x00E0#16 → w ≠ 0x00EE#16 → decodeWord w = .ok (.sys (fieldNNN w))) ∧
    (w &&& 0xFFFF#16 = 0x00E0#16 → decodeWord w = .ok .cls) ∧
    (w &&& 0xFFFF#16 = 0x00EE#16 → decodeWord w = .ok .ret) ∧
    (w &&& 0xF000#16 = 0x1000#16 → decodeWord w = .ok (.jp (fieldNNN w))) ∧
    (w &&& 0xF000#16 = 0x2000#16 → decodeWord w = .ok (.call (fieldNNN w))) ∧
    (w &&& 0xF000#16 = 0x3000#16 → decodeWord w = .ok (.seImm (fieldX w) (fieldKK w))) ∧
    (w &&& 0xF000#16 = 0x4000#16 → decodeWord w = .ok (.sneImm (fieldX w) (fieldKK w))) ∧
    (w &&& 0xF000#16 = 0x5000#16 → decodeWord w = .ok (.seReg (fieldX w) (fieldY w))) ∧
    (w &&& 0xF000#16 = 0x6000#16 → decodeWord w = .ok (.ldImm (fieldX w) (fieldKK w))) ∧
    (w &&& 0xF000#16 = 0x7000#16 → decodeWord w = .ok (.addImm (fieldX w) (fieldKK w))) ∧
    (w &&& 0xF00F#16 = 0x8000#16 → decodeWord w = .ok (.ldReg (fieldX w) (fieldY w))) ∧
    (w &&& 0xF00F#16 = 0x8001#16 → decodeWord w = .ok (.or (fieldX w) (fieldY w))) ∧
    (w &&& 0xF00F#16 = 0x8002#16 → decodeWord w = .ok (.and (fieldX w) (fieldY w))) ∧
    (w &&& 0xF00F#16 = 0x8003#16 → decodeWord w = .ok (.xor (fieldX w) (fieldY w))) ∧
    (w &&& 0xF00F#16 = 0x8004#16 → decodeWord w = .ok (.addReg (fieldX w) (fieldY w))) ∧
    (w &&& 0xF00F#16 = 0x8005#16 → decodeWord w = .ok (.sub (fieldX w) (fieldY w))) ∧
    (w &&& 0xF00F#16 = 0x8006#16 → decodeWord w = .ok (.shr (fieldX w) (fieldY w))) ∧
    (w &&& 0xF00F#16 = 0x8007#16 → decodeWord w = .ok (.subn (fieldX w) (fieldY w))) ∧
    (w &&& 0xF00F#16 = 0x800E#16 → decodeWord w = .ok (.shl (fieldX w) (fieldY w))) ∧
    (w &&& 0xF000#16 = 0x9000#16 → decodeWord w = .ok (.sneReg (fieldX w) (fieldY w))) ∧
    (w &&& 0xF000#16 = 0xA000#16 → decodeWord w = .ok (.ldI (fieldNNN w))) ∧
    (w &&& 0xF000#16 = 0xB000#16 → decodeWord w = .ok (.jpV0 (fieldNNN w))) ∧
    (w &&& 0xF000#16 = 0xC000#16 → decodeWord w = .ok (.rnd (fieldX w) (fieldKK w))) ∧
    (w &&& 0xF000#16 = 0xD000#16 → decodeWord w = .ok (.drw (fieldX w) (fieldY w) (fieldN w))) ∧
    (w &&& 0xF0FF#16 = 0xE09E#16 → decodeWord w = .ok (.skp (fieldX w))) ∧
    (w &&& 0xF0FF#16 = 0xE0A1#16 → decodeWord w = .ok (.sknp (fieldX w))) ∧
    (w &&& 0xF0FF#16 = 0xF007#16 → decodeWord w = .ok (.ldVxDt (fieldX w))) ∧
    (w &&& 0xF0FF#16 = 0xF00A#16 → decodeWord w = .ok (.ldVxK (fieldX w))) ∧
    (w &&& 0xF0FF#16 = 0xF015#16 → decodeWord w = .ok (.ldDtVx (fieldX w))) ∧
    (w &&& 0xF0FF#16 = 0xF018#16 → decodeWord w = .ok (.ldStVx (fieldX w))) ∧
    (w &&& 0xF0FF#16 = 0xF01E#16 → decodeWord w = .ok (.addI (fieldX w))) ∧
    (w &&& 0xF0FF#16 = 0xF029#16 → decodeWord w = .ok (.ldF (fieldX w))) ∧
    (w &&& 0xF0FF#16 = 0xF033#16 → decodeWord w = .ok (.ldB (fieldX w))) ∧
    (w &&& 0xF0FF#16 = 0xF055#16 → decodeWord w = .ok (.ldMemVx (fieldX w))) ∧
    (w &&& 0xF0FF#16 = 0xF065#16 → decodeWord w = .ok (.ldVxMem (fieldX w)))

/-- A word has no tag exactly in the three cases R79 lists (derived by the spec from R74, R77, R78; G1, log 12). -/
def Obligations.ExactlyTheIllegalWordsHaveNoTag : Prop :=
  ∀ w : Word, decodeWord w = .error .noMatch ↔
    (bits w 15 12 = 0x8 ∧ bits w 3 0 ∈ [0x8, 0x9, 0xA, 0xB, 0xC, 0xD, 0xF]) ∨
    (bits w 15 12 = 0xE ∧ bits w 7 0 ∉ [0x9E, 0xA1]) ∨
    (bits w 15 12 = 0xF ∧ bits w 7 0 ∉ [0x07, 0x0A, 0x15, 0x18, 0x1E, 0x29, 0x33, 0x55, 0x65])

/-- The don't-care bits (R80, derived by the spec; D6 and D27 for SYS and for families 5 and 9, logs 14, 23). All SYS words behave
alike; words of families 5 and 9 that differ only in the low nibble decode alike; the shifts do the same whatever `y` is. -/
def Obligations.IgnoredBitsHaveNoEffect : Prop :=
  (∀ (a b : Addr12) (s : State), exec (.sys a) s = exec (.sys b) s) ∧
  (∀ w w' : Word, (bits w 15 12 = 0x5 ∨ bits w 15 12 = 0x9) → bits w' 15 4 = bits w 15 4 →
    decodeWord w' = decodeWord w) ∧
  (∀ (x y y' : Reg) (s : State),
    exec (.shr x y) s = exec (.shr x y') s ∧ exec (.shl x y) s = exec (.shl x y') s)

/-! ### The step -/

/-- A fetch (R52, R101; the fault is the spec's decision D7, log 10) reads the byte at `pc` into bits 15:8 and the one at `pc + 1`
into bits 7:0 for every `pc` up to 0xFFE, even or odd; above that it faults, with 0x1000 when `pc = 0xFFF` and with `pc` when `pc
> 0xFFF`. -/
def Obligations.FetchIsBigEndianAndBounded : Prop :=
  ∀ (m : Memory) (pc : Word),
    (pc.toNat ≤ 0xFFE → ∃ w, fetch m pc = .ok w ∧
      w.toNat = (m.peek pc.toNat).toNat * 256 + (m.peek (pc.toNat + 1)).toNat) ∧
    (pc.toNat = 0xFFF → fetch m pc = .error 0x1000) ∧
    (0xFFF < pc.toNat → fetch m pc = .error pc.toNat)

/-- A step runs the decoded instruction (R100, R101, R103): when the machine is running, the action that is due is a Step (listed,
scheduled or the engine's own), and the bytes at PC decode to `i`, the step is `exec i` at the state with that Step taken off the
list or the schedule and the model's own two marks set: the outcome `next` unless `i` says otherwise, and that a Step has been
taken (logs 3, 4, 16). -/
def Obligations.StepRunsTheFetchedInstruction : Prop :=
  ∀ (s : State) (i : Instr) (rest : List Byte), s.running → s.stepsNext → s.pc.toNat ≤ 0xFFE →
    decode (s.mem.peek s.pc.toNat :: s.mem.peek (s.pc.toNat + 1) :: rest) = .ok (i, rest) →
    step s = exec i { s.taken with out := .next, started := true }

/-- A fetch fault (R222, R224(a); the spec's decisions D7, D8, D21, log 10): a Step, listed, scheduled or the engine's own, whose
PC lies above 0xFFE latches (5, none, PC, lowest address beyond memory) and changes nothing else of the CORE (`taken` and
`started` are the model's own bookkeeping, logs 4, 16). -/
def Obligations.FetchBeyondMemoryLatchesAddressFault : Prop :=
  ∀ s : State, s.running → s.stepsNext → 0xFFE < s.pc.toNat →
    Cause.addressFault.code = 5 ∧
    step s = .next (({ s.taken with started := true } : State).latch
      { cause := .addressFault, opcode := none, pc := s.pc, info := some (max s.pc.toNat 0x1000) })

/-- A decode fault (R106, R222, R223; the record and the latch are the spec's decisions D8, D21; log 1): when a Step, listed,
scheduled or the engine's own, finds a word without a tag it latches the record (1, w, pc0, w) and nothing else; if the very next
action is a Step again, that Step reports the record. (A Step after other actions: FaultedMachineReportsItsRecord with
LatchIsSetByStepAndClearedByReset.) -/
def Obligations.IllegalWordLatchesDecodeFaultAndHalts : Prop :=
  ∀ s : State, s.running → s.stepsNext → s.pc.toNat ≤ 0xFFE → decodeWord s.nextWord = .error .noMatch →
    ∃ (t : State) (r : FaultRecord), r = ⟨.decodeFault, some s.nextWord, s.pc, some s.nextWord.toNat⟩ ∧ r.cause.code = 1 ∧
      step s = .next t ∧ t = ({ s.taken with started := true } : State).latch r ∧
      (t.stepsNext → step t = .fault (.halted r))

/-- With the latch set (R106; the spec's decision D8; log 1) a Step, listed, scheduled or the engine's own, reports the latched
record, whatever the rest of the state. -/
def Obligations.FaultedMachineReportsItsRecord : Prop :=
  ∀ (s : State) (r : FaultRecord), s.fault = some r → s.stepsNext → step s = .fault (.halted r)

/-- The fault latch (R31, R230; the spec's decision D8) is set only by a Step, no later action changes it, and only Reset clears
it. -/
def Obligations.LatchIsSetByStepAndClearedByReset : Prop :=
  ∀ s t : State, step s = .next t →
    (∀ r, s.fault = some r → t.fault = some r ∨ ∃ p, s.due = .reset p ∧ t.fault = none) ∧
    (s.fault = none → ∀ r, t.fault = some r → s.stepsNext ∧ t.out = .fault r)

/-- The outcomes (R11, which the spec derives from R211 and R222; D8, logs 1, 2): a Step of a running machine, listed, scheduled
or the engine's own, has exactly one of three outcomes: `next`; `wait`, with the state as it was; `fault`, with the state as it
was except for the latch. (`out`, `started` and what `taken` does are the model's own bookkeeping, logs 3, 4 and 16.) -/
def Obligations.StepHasOneOfThreeOutcomes : Prop :=
  ∀ s : State, s.running → s.stepsNext → ∃ t, step s = .next t ∧
    ((t.out = .next ∧ t.fault = none) ∨
     t = { s.taken with out := .wait, started := true } ∨
     ∃ r, t = ({ s.taken with started := true } : State).latch r)

/-- Every instruction answers a next state in every state: none is refused and none ends in a host fault. That an instruction
which faults, and one which waits, answers a next state is the model's choice (logs 1, 2), beside the outcomes of R11 and the
dispatch of R103. -/
def Obligations.EveryInstructionAnswersANextState : Prop :=
  ∀ (i : Instr) (s : State), ∃ t, exec i s = .next t

/-- Precise faults (R221, R222; the spec's decisions D8, D21; log 15): an instruction that faults has changed nothing but the
latch (and the outcome it reports), and the record holds the PC of the instruction and the instruction's own word. -/
def Obligations.FaultsArePrecise : Prop :=
  ∀ (i : Instr) (s t : State), s.running → exec i s = .next t → ∀ r, t.fault = some r →
    t = s.latch r ∧ r.pc = s.pc ∧ r.opcode = some (encodeWord i)

/-- The frame rule (R105; the spec's decision D1, log 22): an instruction changes exactly what its rule lists under "writes": an
instruction that neither faults nor waits changes only the pieces, the registers and the bytes its rule names. -/
def Obligations.InstructionChangesOnlyWhatItsRuleLists : Prop :=
  ∀ (i : Instr) (s t : State), s.running → exec i s = .next t → t.fault = none →
    t = { s with out := .wait } ∨
    (ChangesOnly i.writes s t ∧ RegsKeptBut (fun r => i.mayWriteReg r = true) s t ∧
      ∀ a, ¬ i.storesTo s a → t.mem.peek a = s.mem.peek a)

/-! ### Control transfer -/

/-- SYS does nothing but advance PC by 2, for every `nnn` (R110; the spec's decision D6, log 14). -/
def Obligations.SysOnlyAdvancesPc : Prop :=
  ∀ (nnn : Addr12) (s : State), ∃ t, exec (.sys nnn) s = .next t ∧ MovesPc 2 s t ∧ ChangesOnly [.pc] s t

/-- R112, R118: JP puts `nnn` into PC; JP V0 puts the sum of `nnn` and V0 into PC, modulo 65536, which never reduces it. Nothing
else changes. -/
def Obligations.JumpsCompleteAtTheirTargets : Prop :=
  ∀ (nnn : Addr12) (s : State),
    (∃ t, exec (.jp nnn) s = .next t ∧ t.pc.toNat = nnn.toNat ∧ ChangesOnly [.pc] s t) ∧
    (∃ t, exec (.jpV0 nnn) s = .next t ∧ t.pc.toNat = (nnn.toNat + (s.reg 0).toNat) % 65536 ∧
      t.pc.toNat = nnn.toNat + (s.reg 0).toNat ∧ ChangesOnly [.pc] s t)

/-- R114 to R117: each compare skip moves PC by 4 when its condition holds and by 2 when it does not, and changes nothing else. -/
def Obligations.CompareSkipsMovePcByTwoOrFour : Prop :=
  ∀ (x y : Reg) (kk : Byte) (s : State),
    (∃ t, exec (.seImm x kk) s = .next t ∧ MovesPc (if (s.reg x).toNat = kk.toNat then 4 else 2) s t ∧
      ChangesOnly [.pc] s t) ∧
    (∃ t, exec (.sneImm x kk) s = .next t ∧ MovesPc (if (s.reg x).toNat = kk.toNat then 2 else 4) s t ∧
      ChangesOnly [.pc] s t) ∧
    (∃ t, exec (.seReg x y) s = .next t ∧ MovesPc (if (s.reg x).toNat = (s.reg y).toNat then 4 else 2) s t ∧
      ChangesOnly [.pc] s t) ∧
    (∃ t, exec (.sneReg x y) s = .next t ∧ MovesPc (if (s.reg x).toNat = (s.reg y).toNat then 2 else 4) s t ∧
      ChangesOnly [.pc] s t)

/-- R113, with the overflow fault of R225 (the spec's decision D9; the record and the latch: D8, D21, log 15): CALL increments SP,
writes its own address into the new top slot and no other, and puts `nnn` into PC; with SP = 15 it latches (3, w, pc0, none) and
changes nothing else. -/
def Obligations.CallPushesItsOwnAddress : Prop :=
  ∀ (nnn : Addr12) (s : State),
    (s.sp ≠ 15 → ∃ t, exec (.call nnn) s = .next t ∧ t.sp = s.sp + 1 ∧
      (∀ k : Fin 16, t.stack[k.val] = if (k.val : Int) = s.sp + 1 then s.pc else s.stack[k.val]) ∧
      t.pc.toNat = nnn.toNat ∧ ChangesOnly [.sp, .stack, .pc] s t) ∧
    (s.sp = 15 → ∃ w : Word, w.toNat = 0x2000 + nnn.toNat ∧
      exec (.call nnn) s = .next (s.latch ⟨.stackOverflow, some w, s.pc, none⟩) ∧ Cause.stackOverflow.code = 3)

/-- R111, with the underflow fault of R226 (the spec's decision D9; the record and the latch: D8, D21, log 15): RET puts the
popped slot plus 2 into PC and decrements SP; every slot keeps its value; with SP = -1 it latches (2, 0x00EE, pc0, none) and
changes nothing else. -/
def Obligations.ReturnPopsTheCallAddress : Prop :=
  ∀ s : State,
    (∀ k : Fin 16, (k.val : Int) = s.sp → ∃ t, exec .ret s = .next t ∧
      t.pc.toNat = ((s.stack[k.val]).toNat + 2) % 65536 ∧ t.sp = s.sp - 1 ∧ ChangesOnly [.pc, .sp] s t) ∧
    (s.sp = -1 →
      exec .ret s = .next (s.latch ⟨.stackUnderflow, some 0x00EE#16, s.pc, none⟩) ∧ Cause.stackUnderflow.code = 2)

/-- R111, R113 (source property S7): a RET in any state with the stack and SP a CALL left resumes at the instruction following the
CALL, with SP as it was before the CALL. -/
def Obligations.ReturnResumesAfterTheCall : Prop :=
  ∀ (nnn : Addr12) (s t t' : State), s.sp ≠ 15 → exec (.call nnn) s = .next t → t'.sp = t.sp → t'.stack = t.stack →
    ∃ u, exec .ret t' = .next u ∧ MovesPc 2 s u ∧ u.sp = s.sp

/-! ### Loads, arithmetic and logic -/

/-- R131, R132, R133: the moves and the immediate add, which sets no flag. -/
def Obligations.MovesAndImmediateAdd : Prop :=
  ∀ (x y : Reg) (kk : Byte) (s : State),
    (∃ t, exec (.ldImm x kk) s = .next t ∧ t.reg x = kk ∧
      RegsKeptBut (· = x) s t ∧ MovesPc 2 s t ∧ ChangesOnly [.v, .pc] s t) ∧
    (∃ t, exec (.addImm x kk) s = .next t ∧ (t.reg x).toNat = ((s.reg x).toNat + kk.toNat) % 256 ∧
      RegsKeptBut (· = x) s t ∧ MovesPc 2 s t ∧ ChangesOnly [.v, .pc] s t) ∧
    (∃ t, exec (.ldReg x y) s = .next t ∧ t.reg x = s.reg y ∧
      RegsKeptBut (· = x) s t ∧ MovesPc 2 s t ∧ ChangesOnly [.v, .pc] s t)

/-- R134, R135, R136: the three logic instructions, bit by bit; VF is not written unless `x` names it. -/
def Obligations.LogicWorksBitByBitWithoutFlag : Prop :=
  ∀ (x y : Reg) (s : State),
    (∃ t, exec (.or x y) s = .next t ∧
      (∀ b, (t.reg x).getLsbD b = ((s.reg x).getLsbD b || (s.reg y).getLsbD b)) ∧
      RegsKeptBut (· = x) s t ∧ MovesPc 2 s t ∧ ChangesOnly [.v, .pc] s t) ∧
    (∃ t, exec (.and x y) s = .next t ∧
      (∀ b, (t.reg x).getLsbD b = ((s.reg x).getLsbD b && (s.reg y).getLsbD b)) ∧
      RegsKeptBut (· = x) s t ∧ MovesPc 2 s t ∧ ChangesOnly [.v, .pc] s t) ∧
    (∃ t, exec (.xor x y) s = .next t ∧
      (∀ b, (t.reg x).getLsbD b = ((s.reg x).getLsbD b ^^ (s.reg y).getLsbD b)) ∧
      RegsKeptBut (· = x) s t ∧ MovesPc 2 s t ∧ ChangesOnly [.v, .pc] s t)

/-- R137, and the carry law R138 (which the spec derives from R137): ADD Vx, Vy. VF is the carry, written last (R139, the spec's
decision D14, log 26); where `x` does not name VF, `Vx` is the sum modulo 256, the sum is 256 times the flag plus the result, and
the flag is 1 exactly when the result is below either operand. -/
def Obligations.AddRegisterSetsCarry : Prop :=
  ∀ (x y : Reg) (s : State), ∃ t, exec (.addReg x y) s = .next t ∧
    (t.reg regF).toNat = (if (s.reg x).toNat + (s.reg y).toNat > 255 then 1 else 0) ∧
    (x ≠ regF →
      (t.reg x).toNat = ((s.reg x).toNat + (s.reg y).toNat) % 256 ∧
      (s.reg x).toNat + (s.reg y).toNat = 256 * (t.reg regF).toNat + (t.reg x).toNat ∧
      ((t.reg regF).toNat = 1 ↔ (t.reg x).toNat < (s.reg x).toNat) ∧
      ((t.reg regF).toNat = 1 ↔ (t.reg x).toNat < (s.reg y).toNat)) ∧
    RegsKeptBut (fun r => r = x ∨ r = regF) s t ∧ MovesPc 2 s t ∧ ChangesOnly [.v, .pc] s t

/-- R141, R142 (the absolute difference is the spec's decision D13, log 11; VF last is D14, log 26): the subtractions store the
absolute difference and write NOT borrow into VF, last. -/
def Obligations.SubtractionsStoreTheAbsoluteDifference : Prop :=
  ∀ (x y : Reg) (s : State),
    (∃ t, exec (.sub x y) s = .next t ∧
      (t.reg regF).toNat = (if (s.reg y).toNat > (s.reg x).toNat then 0 else 1) ∧
      (x ≠ regF → ((t.reg x).toNat : Int) = |((s.reg x).toNat : Int) - ((s.reg y).toNat : Int)|) ∧
      RegsKeptBut (fun r => r = x ∨ r = regF) s t ∧ MovesPc 2 s t ∧ ChangesOnly [.v, .pc] s t) ∧
    (∃ t, exec (.subn x y) s = .next t ∧
      (t.reg regF).toNat = (if (s.reg x).toNat > (s.reg y).toNat then 0 else 1) ∧
      (x ≠ regF → ((t.reg x).toNat : Int) = |((s.reg y).toNat : Int) - ((s.reg x).toNat : Int)|) ∧
      RegsKeptBut (fun r => r = x ∨ r = regF) s t ∧ MovesPc 2 s t ∧ ChangesOnly [.v, .pc] s t)

/-- R143, R144: the shifts move `Vx` by one bit, a 0 enters, and VF takes the bit shifted out, last (R139: the order is the spec's
decision D14, log 26; the source's own shift lines list VF first); `Vy` is not written. -/
def Obligations.ShiftsMoveOneBitIntoVF : Prop :=
  ∀ (x y : Reg) (s : State),
    (∃ t, exec (.shr x y) s = .next t ∧ (t.reg regF).toNat = (s.reg x).toNat % 2 ∧
      (x ≠ regF → (t.reg x).toNat = (s.reg x).toNat / 2) ∧
      RegsKeptBut (fun r => r = x ∨ r = regF) s t ∧ MovesPc 2 s t ∧ ChangesOnly [.v, .pc] s t) ∧
    (∃ t, exec (.shl x y) s = .next t ∧ (t.reg regF).toNat = (if (s.reg x).toNat ≥ 128 then 1 else 0) ∧
      (x ≠ regF → (t.reg x).toNat = (s.reg x).toNat * 2 % 256) ∧
      RegsKeptBut (fun r => r = x ∨ r = regF) s t ∧ MovesPc 2 s t ∧ ChangesOnly [.v, .pc] s t)

/-- R146 (the free byte is the spec's decision D15, log 5): RND stores the step's free byte masked by `kk`: no bit that `kk` lacks
is set, so the result is at most `kk`; `kk = 0` gives 0 and `kk = 0xFF` the byte itself. The byte is the free value of draw number
`draws`, which is consumed (log 5). -/
def Obligations.RandomIsMaskedAndDrawConsumed : Prop :=
  ∀ (x : Reg) (kk : Byte) (s : State), ∃ t, exec (.rnd x kk) s = .next t ∧
    (∀ b, (t.reg x).getLsbD b = ((Config.rnd s.draws).getLsbD b && kk.getLsbD b)) ∧
    (t.reg x).toNat ≤ kk.toNat ∧ (kk = 0x00#8 → t.reg x = 0x00#8) ∧ (kk = 0xFF#8 → t.reg x = Config.rnd s.draws) ∧
    t.draws = s.draws + 1 ∧ RegsKeptBut (· = x) s t ∧ MovesPc 2 s t ∧ ChangesOnly [.v, .pc, .draws] s t

/-- R21: the six flag-setting instructions, when they complete, leave exactly 0 or 1 in VF. -/
def Obligations.FlagWritesAreZeroOrOne : Prop :=
  ∀ (x y : Reg) (n : Nibble) (i : Instr) (s t : State),
    i ∈ [Instr.addReg x y, .sub x y, .subn x y, .shr x y, .shl x y, .drw x y n] →
    s.running → exec i s = .next t → t.fault = none → t.reg regF = 0 ∨ t.reg regF = 1

/-! ### Index register and memory -/

/-- R160, R161, R162: the three writers of I; none writes a flag. -/
def Obligations.IndexRegisterWriters : Prop :=
  ∀ (x : Reg) (nnn : Addr12) (s : State),
    (∃ t, exec (.ldI nnn) s = .next t ∧ t.i.toNat = nnn.toNat ∧ MovesPc 2 s t ∧ ChangesOnly [.i, .pc] s t) ∧
    (∃ t, exec (.addI x) s = .next t ∧ t.i.toNat = (s.i.toNat + (s.reg x).toNat) % 65536 ∧
      MovesPc 2 s t ∧ ChangesOnly [.i, .pc] s t) ∧
    (∃ t, exec (.ldF x) s = .next t ∧ t.i.toNat = (s.reg x).toNat * 5 ∧ MovesPc 2 s t ∧ ChangesOnly [.i, .pc] s t)

/-- R55, R56 (the fault is the spec's decision D7, log 10; the canonical form is the model's, log 24): the two access primitives,
for an address of any size. -/
def Obligations.AccessPrimitivesReadAndWriteOneCell : Prop :=
  ∀ (m : Memory) (a : Nat) (v : Byte), m.wf = true →
    (a ≤ 0xFFF → memRead m a = .ok (m.peek a) ∧
      ∃ m', memWrite m a v = .ok m' ∧ m'.wf = true ∧
        ∀ b, m'.peek b = if b = a then v else m.peek b) ∧
    (0xFFF < a → memRead m a = .error a ∧ memWrite m a v = .error a)

/-- The canonical form says once what memory holds: two memories in it that read the same at every address are equal (the model's
own representation of R30, log 24). -/
def Obligations.MemoriesThatReadAlikeAreEqual : Prop :=
  ∀ m m' : Memory, m.wf = true → m'.wf = true → (∀ a, m.peek a = m'.peek a) → m = m'

/-- R163 (the fault, its record and the latch: R221, R222, R224, the spec's decisions D7, D8, D21, logs 10, 15): LD B stores the
decimal digits of `Vx` at I, I + 1, I + 2, hundreds first, and changes no other byte and not I; where an address exceeds 0xFFF it
latches (5, w, pc0, the lowest such address) and stores nothing. -/
def Obligations.BcdStoresThreeDigits : Prop :=
  ∀ (x : Reg) (s : State), s.mem.wf = true →
    (s.i.toNat + 2 ≤ 0xFFF → ∃ t, exec (.ldB x) s = .next t ∧
      (t.mem.peek s.i.toNat).toNat = (s.reg x).toNat / 100 ∧
      (t.mem.peek (s.i.toNat + 1)).toNat = (s.reg x).toNat / 10 % 10 ∧
      (t.mem.peek (s.i.toNat + 2)).toNat = (s.reg x).toNat % 10 ∧
      (∀ a, ¬ (s.i.toNat ≤ a ∧ a ≤ s.i.toNat + 2) → t.mem.peek a = s.mem.peek a) ∧
      MovesPc 2 s t ∧ ChangesOnly [.mem, .pc] s t) ∧
    (0xFFF < s.i.toNat + 2 → exec (.ldB x) s =
      .next (s.latch ⟨.addressFault, some (encodeWord (.ldB x)), s.pc, some (max s.i.toNat 0x1000)⟩) ∧
      Cause.addressFault.code = 5)

/-- R164 (the fault, its record and the latch: R221, R222, R224, the spec's decisions D7, D8, D21, logs 10, 15): LD [I], Vx stores
V0 to Vx at I up and changes no other byte, no register and not I; where I + x exceeds 0xFFF it latches (5, w, pc0, the lowest
address beyond memory) and stores nothing. -/
def Obligations.BlockStoreWritesV0ToVx : Prop :=
  ∀ (x : Reg) (s : State), s.mem.wf = true →
    (s.i.toNat + x.val ≤ 0xFFF → ∃ t, exec (.ldMemVx x) s = .next t ∧
      (∀ j : Reg, j ≤ x → t.mem.peek (s.i.toNat + j.val) = s.reg j) ∧
      (∀ a, ¬ (s.i.toNat ≤ a ∧ a ≤ s.i.toNat + x.val) → t.mem.peek a = s.mem.peek a) ∧
      MovesPc 2 s t ∧ ChangesOnly [.mem, .pc] s t) ∧
    (0xFFF < s.i.toNat + x.val → exec (.ldMemVx x) s =
      .next (s.latch ⟨.addressFault, some (encodeWord (.ldMemVx x)), s.pc, some (max s.i.toNat 0x1000)⟩) ∧
      Cause.addressFault.code = 5)

/-- R165 (the fault, its record and the latch: R221, R222, R224, the spec's decisions D7, D8, D21, logs 10, 15): LD Vx, [I] loads
V0 to Vx from I up and changes no other register, no byte and not I; where I + x exceeds 0xFFF it latches (5, w, pc0, the lowest
address beyond memory) and loads nothing. -/
def Obligations.BlockLoadReadsV0ToVx : Prop :=
  ∀ (x : Reg) (s : State),
    (s.i.toNat + x.val ≤ 0xFFF → ∃ t, exec (.ldVxMem x) s = .next t ∧
      (∀ j : Reg, j ≤ x → t.reg j = s.mem.peek (s.i.toNat + j.val)) ∧
      RegsKeptBut (· ≤ x) s t ∧ MovesPc 2 s t ∧ ChangesOnly [.v, .pc] s t) ∧
    (0xFFF < s.i.toNat + x.val → exec (.ldVxMem x) s =
      .next (s.latch ⟨.addressFault, some (encodeWord (.ldVxMem x)), s.pc, some (max s.i.toNat 0x1000)⟩) ∧
      Cause.addressFault.code = 5)

/-- R166 (the spec's decision D1): what LD [I], Vx stored, LD Vx, [I] loads back without I being set again, whatever the registers
hold by then. -/
def Obligations.BlockStoreThenLoadRestoresRegisters : Prop :=
  ∀ (x : Reg) (s : State) (v : Vector Byte 16), s.mem.wf = true → s.i.toNat + x.val ≤ 0xFFF →
    ∃ t u, exec (.ldMemVx x) s = .next t ∧ exec (.ldVxMem x) { t with v := v } = .next u ∧
      ∀ j : Reg, u.reg j = if j ≤ x then s.reg j else v[j.val]

/-- R62 (derived by the spec): a store is seen by the fetch of the very next instruction: LD [I], Vx with I at the following
address makes V0 and V1 its word. -/
def Obligations.StoredWordIsFetchedNext : Prop :=
  ∀ (x : Reg) (s : State), s.mem.wf = true → 1 ≤ x.val → s.i.toNat = s.pc.toNat + 2 → s.i.toNat + x.val ≤ 0xFFF →
    ∃ t w, exec (.ldMemVx x) s = .next t ∧ fetch t.mem t.pc = .ok w ∧
      w.toNat = (s.reg 0).toNat * 256 + (s.reg 1).toNat

/-! ### Framebuffer -/

/-- R181: CLS puts every pixel to 0 and changes nothing else but PC. -/
def Obligations.ClearScreenClearsEveryPixel : Prop :=
  ∀ s : State, ∃ t, exec .cls s = .next t ∧ (∀ r c, t.fb.pixel r c = false) ∧
    MovesPc 2 s t ∧ ChangesOnly [.fb, .pc] s t

/-- The draw loops of R183 without loops (R184, derived by the spec from R183). With `j` and `i` the distances of a cell from the
sprite's corner, the cell is XORed with source bit `7 - i` of row `j` when `j < n` and `i < 8`, and kept otherwise; the collision
bit is 1 exactly when some source 1 bit meets a pixel that was 1. -/
def Obligations.DrawIsItsClosedForm : Prop :=
  ∀ (fb : Grid) (rows : List Byte) (vx vy : Byte), rows.length ≤ 15 →
    (∀ (r : Fin 32) (c : Fin 64),
      let j := (r.val + 32 - vy.toNat % 32) % 32
      let i := (c.val + 64 - vx.toNat % 64) % 64
      (draw fb rows vx.toNat vy.toNat).1.pixel r c =
        if j < rows.length ∧ i < 8 then fb.pixel r c ^^ (rows.getD j 0).getLsbD (7 - i) else fb.pixel r c) ∧
    ((draw fb rows vx.toNat vy.toNat).2 = true ↔ ∃ (r : Fin 32) (c : Fin 64),
      let j := (r.val + 32 - vy.toNat % 32) % 32
      let i := (c.val + 64 - vx.toNat % 64) % 64
      j < rows.length ∧ i < 8 ∧ (rows.getD j 0).getLsbD (7 - i) = true ∧ fb.pixel r c = true)

/-- R182 (the fault, its record and the latch: R221, R222, R224, the spec's decisions D7, D8, D21, logs 10, 15; VF last: D14, log
26): DRW draws the `n` bytes from I up at column `Vx`, row `Vy`, then writes the collision bit into VF, 0 or 1; memory, I and the
other registers are kept; `n = 0` cannot fault; where a row lies above 0xFFF it latches (5, w, pc0, the lowest such address) and
draws nothing. -/
def Obligations.DrawInstructionDrawsAndSetsVF : Prop :=
  ∀ (x y : Reg) (n : Nibble) (s : State),
    (n.toNat = 0 ∨ s.i.toNat + n.toNat - 1 ≤ 0xFFF → ∃ t, exec (.drw x y n) s = .next t ∧
      (∀ d, d = draw s.fb ((List.range n.toNat).map fun j => s.mem.peek (s.i.toNat + j)) (s.reg x).toNat (s.reg y).toNat →
        t.fb = d.1 ∧ (t.reg regF).toNat = if d.2 then 1 else 0) ∧
      RegsKeptBut (· = regF) s t ∧ MovesPc 2 s t ∧ ChangesOnly [.fb, .v, .pc] s t) ∧
    (n.toNat ≠ 0 → 0xFFF < s.i.toNat + n.toNat - 1 → exec (.drw x y n) s =
      .next (s.latch ⟨.addressFault, some (encodeWord (.drw x y n)), s.pc, some (max s.i.toNat 0x1000)⟩) ∧
      Cause.addressFault.code = 5)

/-- R185(a), derived by the spec from R184: drawing twice gives the grid back. -/
def Obligations.DrawingTwiceRestoresTheGrid : Prop :=
  ∀ (fb : Grid) (rows : List Byte) (vx vy : Byte), rows.length ≤ 15 →
    (draw (draw fb rows vx.toNat vy.toNat).1 rows vx.toNat vy.toNat).1 = fb

/-- R185(b), derived by the spec from R184: on a grid with no pixel set the first draw does not collide, and the second collides
exactly when the sprite has a 1 bit. -/
def Obligations.SecondDrawOnClearGridCollides : Prop :=
  ∀ (rows : List Byte) (vx vy : Byte), rows.length ≤ 15 →
    (draw Grid.clear rows vx.toNat vy.toNat).2 = false ∧
    ((draw (draw Grid.clear rows vx.toNat vy.toNat).1 rows vx.toNat vy.toNat).2 = true ↔ ∃ b ∈ rows, b ≠ 0)

/-- R185(c), derived by the spec from R184: a draw depends on its coordinates only modulo the grid's width and height. -/
def Obligations.DrawIsPeriodic : Prop :=
  ∀ (fb : Grid) (rows : List Byte) (vx vy : Byte),
    draw fb rows vx.toNat vy.toNat = draw fb rows (vx.toNat % 64) (vy.toNat % 32)

/-! ### Keys and timers -/

/-- R200, R201, R227 (the fault is the spec's decision D11, its record and the latch D8, D21, log 15): the key skips move PC by 4
or 2 on the flag of key `Vx`; with `Vx > 15` they latch (4, w, pc0, Vx) and change nothing else. -/
def Obligations.KeySkipsReadOneFlagOrFault : Prop :=
  ∀ (x : Reg) (s : State),
    (∀ k : Key, (s.reg x).toNat = k.val →
      (∃ t, exec (.skp x) s = .next t ∧ MovesPc (if s.keys[k.val] then 4 else 2) s t ∧ ChangesOnly [.pc] s t) ∧
      (∃ t, exec (.sknp x) s = .next t ∧ MovesPc (if s.keys[k.val] then 2 else 4) s t ∧ ChangesOnly [.pc] s t)) ∧
    (15 < (s.reg x).toNat →
      exec (.skp x) s =
        .next (s.latch ⟨.keyIndexFault, some (encodeWord (.skp x)), s.pc, some (s.reg x).toNat⟩) ∧
      exec (.sknp x) s =
        .next (s.latch ⟨.keyIndexFault, some (encodeWord (.sknp x)), s.pc, some (s.reg x).toNat⟩) ∧
      Cause.keyIndexFault.code = 4)

/-- R202, R203, R204: the three timer moves; LD ST, Vx emits no tone signal. -/
def Obligations.TimerMovesCopyOneByte : Prop :=
  ∀ (x : Reg) (s : State),
    (∃ t, exec (.ldVxDt x) s = .next t ∧ t.reg x = s.dt ∧ RegsKeptBut (· = x) s t ∧ MovesPc 2 s t ∧
      ChangesOnly [.v, .pc] s t) ∧
    (∃ t, exec (.ldDtVx x) s = .next t ∧ t.dt = s.reg x ∧ MovesPc 2 s t ∧ ChangesOnly [.dt, .pc] s t) ∧
    (∃ t, exec (.ldStVx x) s = .next t ∧ t.st = s.reg x ∧ MovesPc 2 s t ∧ ChangesOnly [.st, .pc] s t)

/-- R210, R211 (the level reading is the spec's decision D12, log 21; log 2): with no key pressed the outcome of a Step at LD Vx,
K is `wait` and the state is what it was (`out`, `started` and what `taken` does are the model's own, logs 3, 4 and 16); and as
long as no other agent acts, every further Step waits in the same state. -/
def Obligations.KeyWaitChangesNothingUntilAKey : Prop :=
  ∀ (x : Reg) (s : State), s.running → s.stepsNext → s.pc.toNat ≤ 0xFFE → decodeWord s.nextWord = .ok (.ldVxK x) →
    (∀ k : Key, s.keys[k.val] = false) →
    ∃ t, step s = .next t ∧ t = { s.taken with out := .wait, started := true } ∧
      (t.stepsNext → step t = .next t.taken)

/-- R210, R212 (the spec's decision D12, logs 6, 21): with a key pressed, LD Vx, K stores the index of a pressed key, of the only
one if there is one, and goes on; whatever `Vx` held is no index. Which of several is a free value. -/
def Obligations.KeyWaitStoresAPressedKey : Prop :=
  ∀ (x : Reg) (s : State) (k : Key), s.keys[k.val] = true →
    ∃ t j, exec (.ldVxK x) s = .next t ∧ j < 16 ∧ (∃ l : Key, l.val = j ∧ s.keys[l.val] = true) ∧ (t.reg x).toNat = j ∧
      ((∀ l : Key, s.keys[l.val] = true → l = k) → j = k.val) ∧
      RegsKeptBut (· = x) s t ∧ MovesPc 2 s t ∧ ChangesOnly [.v, .pc, .draws] s t

/-! ### The other agents -/

/-- R235, with the signal of R236: a Tick, listed or scheduled, takes 1 from each timer that is above 0, emits the tone signal
exactly when ST was 1, and touches nothing else, whether or not the machine has faulted (R244). (`out` and what `taken` does are
the model's own bookkeeping, logs 3, 4.) -/
def Obligations.TickCountsDownAndSignalsOnce : Prop :=
  ∀ s : State, s.due = .tick →
    ∃ t, step s = .next t ∧ t.dt.toNat = s.dt.toNat - 1 ∧ t.st.toNat = s.st.toNat - 1 ∧
      (t.out = .tonePulse ↔ s.st.toNat = 1) ∧ ChangesOnly [.dt, .st, .out] s.taken t

/-- R236 (the spec's decision D22): nothing but a Tick that takes ST from 1 to 0 emits the tone signal. -/
def Obligations.ToneSignalComesOnlyFromATick : Prop :=
  ∀ s t : State, step s = .next t → t.out = .tonePulse → s.due = .tick ∧ s.st.toNat = 1 ∧ t.st.toNat = 0

/-- R238 (the four-bit index is the spec's decision D29, log 25): a SetKey, listed or scheduled, writes one key flag and nothing
else (`out` and what `taken` does are the model's own bookkeeping, logs 3, 4). -/
def Obligations.SetKeyWritesOneFlag : Prop :=
  ∀ (s : State) (k : Key) (pressed : Bool), s.due = .setKey k pressed →
    ∃ t, step s = .next t ∧ (∀ j : Key, t.keys[j.val] = if j = k then pressed else s.keys[j.val]) ∧
      ChangesOnly [.keys, .out] s.taken t

/-- R37: a Snapshot, listed or scheduled, answers the grid as it stands and changes nothing (`out` and what `taken` does are the
model's own bookkeeping, logs 3, 4). -/
def Obligations.SnapshotAnswersTheGrid : Prop :=
  ∀ s : State, s.due = .snapshot →
    ∃ t, step s = .next t ∧ t.out = .snapshot s.fb ∧ ChangesOnly [.out] s.taken t

/-- R264, with the limits of R265 (the spec's decision D19, logs 16, 17): a Load, listed or scheduled, puts the image at 0x200 up
and changes no other byte and nothing else of the CORE; a longer image than 3584 bytes, a faulted machine and a machine that has
stepped refuse it. -/
def Obligations.LoadStoresTheImageOrIsRefused : Prop :=
  ∀ (s : State) (image : List Byte), s.due = .load image →
    (s.mem.wf = true → image.length ≤ 3584 → s.fault = none → s.started = false →
      ∃ t, step s = .next t ∧ (∀ j (h : j < image.length), t.mem.peek (0x200 + j) = image[j]) ∧
        (∀ a, ¬ (0x200 ≤ a ∧ a < 0x200 + image.length) → t.mem.peek a = s.mem.peek a) ∧
        ChangesOnly [.mem, .out] s.taken t) ∧
    (3584 < image.length ∨ s.fault ≠ none ∨ s.started = true → ∃ r, step s = .refused r)

/-- R36, R260 (the spec's decision D18): a Reset in any state, faulted or not, listed or scheduled, puts every piece of the CORE's
state at its reset value, the open ones at the values the request carries, and emits no tone signal. That a RESET_MEM byte which
the request does not list is 0 is the model's choice (logs 8, 28), where R36 leaves RESET_MEM unspecified, and so is the canonical
form of memory (log 24). Of the model's own fields it clears `started`, so that a Load is accepted again (R266; log 16), and keeps
the actions still to come (log 4) and the count of draws (log 5). -/
def Obligations.ResetRestoresEveryPiece : Prop :=
  ∀ (s : State) (p : ResetParams), s.due = .reset p →
    ∃ t, step s = .next t ∧ (∀ r, t.reg r = 0) ∧ t.i = p.i ∧ t.pc = 0x200#16 ∧ t.sp = -1 ∧ t.stack = p.stack ∧
      t.dt = p.dt ∧ t.st = p.st ∧ (∀ k : Key, t.keys[k.val] = false) ∧ (∀ r c, t.fb.pixel r c = false) ∧
      t.fault = none ∧ t.out ≠ .tonePulse ∧
      (∀ a (h : a < 80), t.mem.peek a = p.font[a]) ∧
      (∀ j (h : j < p.mem.length), j < 4016 → t.mem.peek (0x50 + j) = p.mem[j]) ∧
      (∀ j, p.mem.length ≤ j → j < 4016 → t.mem.peek (0x50 + j) = 0) ∧ t.mem.wf = true ∧
      t.started = false ∧ t.requests = s.taken.requests ∧ t.agenda = s.taken.agenda ∧ t.draws = s.draws

/-- R36, R263 (SP = -1 and the keys are the spec's D10, D18; log 20): the values the spec gives for reset hold in the state after
reset. -/
def Obligations.ResetStateHasTheSpecsValues : Prop :=
  (∀ r, State.reset.reg r = 0) ∧ State.reset.pc = 0x200#16 ∧ State.reset.sp = -1 ∧
  (∀ k : Key, State.reset.keys[k.val] = false) ∧ (∀ r c, State.reset.fb.pixel r c = false) ∧ State.reset.fault = none

/-- Every finite or infinite interleaving of the actions is a run (R10, R240; the spec's decision D23, logs 4, 29). A listed request
is served before anything else, and a list of any requests one by one in its order; with none listed the engine steps, or, under
the free schedule, the action that the free value Config.schedule has at this turn is served, whatever it is, and the schedule goes
on to the next turn, for ever. -/
def Obligations.ActionsAreServedInAFreeOrder : Prop :=
  (∀ (r : Request) (later : List Request) (s : State), s.requests = r :: later →
    step s = serve r { s with requests := later }) ∧
  (∀ s : State, s.requests = [] → s.agenda = .engine → step s = serve .step s) ∧
  (∀ (turn : Nat) (s : State), s.requests = [] → s.agenda = .free turn →
    step s = serve (Config.schedule turn) { s with agenda := .free (turn + 1) }) ∧
  (∀ (now later : List Request) (s t : State), s.requests = now ++ later → core.run now.length s = .next t →
    t.requests = later ∧ t.agenda = s.agenda) ∧
  (∀ (k turn : Nat) (s t : State), s.requests = [] → s.agenda = .free turn → core.run k s = .next t →
    t.requests = [] ∧ t.agenda = .free (turn + k))

/-! ### Rules of the whole machine -/

/-- R29: only CLS, DRW and Reset change the framebuffer. -/
def Obligations.OnlyClearDrawAndResetChangeTheGrid : Prop :=
  ∀ s t : State, step s = .next t → t.fb ≠ s.fb →
    (∃ p, s.due = .reset p) ∨
    (s.stepsNext ∧ (decodeWord s.nextWord = .ok .cls ∨ ∃ x y n, decodeWord s.nextWord = .ok (.drw x y n)))

/-- R28, R34: only SetKey and Reset change a key flag; no instruction does. -/
def Obligations.OnlySetKeyAndResetChangeKeys : Prop :=
  ∀ s t : State, step s = .next t → t.keys ≠ s.keys →
    (∃ k pressed, s.due = .setKey k pressed) ∨ ∃ p, s.due = .reset p

/-- R30: after Load, only the two store instructions change memory: a byte that a Step, listed, scheduled or the engine's own,
changes lies in the block that LD B or LD [I], Vx stores to, at the address computed from I; and a Tick, a SetKey and a Snapshot
change none. -/
def Obligations.OnlyStoresChangeMemory : Prop :=
  ∀ (s t : State) (a : Nat), step s = .next t → t.mem.peek a ≠ s.mem.peek a →
    (∃ p, s.due = .reset p) ∨ (∃ image, s.due = .load image) ∨
    (s.stepsNext ∧ ∃ x,
      (decodeWord s.nextWord = .ok (.ldB x) ∧ s.base ≤ a ∧ a ≤ s.base + 2) ∨
      (decodeWord s.nextWord = .ok (.ldMemVx x) ∧ s.base ≤ a ∧ a ≤ s.base + x.val))

/-- The invariant holds in the model's state after reset: memory in the model's own canonical form (log 24), PC at most 0x10FE
(the bound of R118), every live stack slot at most 0xFFE (the spec's inference in R111), and a latched record of its cause's form
with the PC the machine stopped at (the spec's decisions D8, D21). -/
def Obligations.InvariantHoldsAfterReset : Prop := State.reset.Inv

/-- HEADLINE. Every action keeps the invariant, from every state that has it: memory in the model's own canonical form, inside
0x000 to 0xFFF (log 24; R30, R56), PC at most 0x10FE (the bound of R118), every live stack slot at most 0xFFE (the spec's
inference in R111), a latched record of its cause's form with the PC the machine stopped at (the spec's decisions D8, D21). And a
stack slot that is live after the action was live before with the same value or is the PC of a CALL that the action fetched (R25,
the spec's inference). -/
def Obligations.EveryActionKeepsTheInvariant : Prop :=
  ∀ s t : State, s.Inv → step s = .next t → t.Inv ∧ SlotsComeFromCalls s t
end

