-- ==== Sys2Proof/Laws/Decode.lean ====
section
/-! SUPPORT. The fields of the four word formats (R71, R72), the length and the round trip of the two bytes of a word (R52). -/

namespace Sys2Proof

theorem bits_lt (w : Word) (hi lo : Nat) : bits w hi lo < 2 ^ (hi - lo + 1) :=
  Nat.mod_lt _ (Nat.two_pow_pos _)

theorem family_lt (w : Word) : bits w 15 12 < 16 := bits_lt w 15 12

/-! ### Format A -/

theorem formatA_family {o : Nat} (nnn : Addr12) (h : o < 16) : bits (formatA o nnn) 15 12 = o := by
  have := nnn.isLt
  simp only [bits, formatA, BitVec.toNat_ofNat]
  omega

theorem formatA_nnn (o : Nat) (nnn : Addr12) : fieldNNN (formatA o nnn) = nnn := by
  have := nnn.isLt
  apply BitVec.eq_of_toNat_eq
  simp only [fieldNNN, bits, formatA, BitVec.toNat_ofNat]
  omega

/-! ### Format XK -/

theorem formatXK_family {o : Nat} (x : Reg) (kk : Byte) (h : o < 16) : bits (formatXK o x kk) 15 12 = o := by
  have := kk.isLt
  simp only [bits, formatXK, BitVec.toNat_ofNat]
  omega

theorem formatXK_x (o : Nat) (x : Reg) (kk : Byte) : fieldX (formatXK o x kk) = x := by
  have := kk.isLt
  apply Fin.ext
  simp only [fieldX, bits, formatXK, BitVec.toNat_ofNat, Fin.val_ofNat]
  omega

theorem formatXK_kk (o : Nat) (x : Reg) (kk : Byte) : fieldKK (formatXK o x kk) = kk := by
  have := kk.isLt
  apply BitVec.eq_of_toNat_eq
  simp only [fieldKK, bits, formatXK, BitVec.toNat_ofNat]
  omega

/-! ### Formats XY and XYN -/

theorem formatXY_family {o s : Nat} (x y : Reg) (h : o < 16) (hs : s < 16) : bits (formatXY o x y s) 15 12 = o := by
  simp only [bits, formatXY, BitVec.toNat_ofNat]
  omega

theorem formatXY_x {s : Nat} (o : Nat) (x y : Reg) (hs : s < 16) : fieldX (formatXY o x y s) = x := by
  apply Fin.ext
  simp only [fieldX, bits, formatXY, BitVec.toNat_ofNat, Fin.val_ofNat]
  omega

theorem formatXY_y {s : Nat} (o : Nat) (x y : Reg) (hs : s < 16) : fieldY (formatXY o x y s) = y := by
  apply Fin.ext
  simp only [fieldY, bits, formatXY, BitVec.toNat_ofNat, Fin.val_ofNat]
  omega

theorem formatXY_low {s : Nat} (o : Nat) (x y : Reg) (hs : s < 16) : bits (formatXY o x y s) 3 0 = s := by
  simp only [bits, formatXY, BitVec.toNat_ofNat]
  omega

/-! ### Format X -/

theorem formatX_family {o ss : Nat} (x : Reg) (h : o < 16) (hs : ss < 256) : bits (formatX o x ss) 15 12 = o := by
  simp only [bits, formatX, BitVec.toNat_ofNat]
  omega

theorem formatX_x {ss : Nat} (o : Nat) (x : Reg) (hs : ss < 256) : fieldX (formatX o x ss) = x := by
  apply Fin.ext
  simp only [fieldX, bits, formatX, BitVec.toNat_ofNat, Fin.val_ofNat]
  omega

theorem formatX_low {ss : Nat} (o : Nat) (x : Reg) (hs : ss < 256) : bits (formatX o x ss) 7 0 = ss := by
  simp only [bits, formatX, BitVec.toNat_ofNat]
  omega

/-! ### Bytes -/

theorem wordOfBytes_toNat (hi lo : Byte) : (wordOfBytes hi lo).toNat = hi.toNat * 256 + lo.toNat := by
  have := hi.isLt
  have := lo.isLt
  simp only [wordOfBytes, BitVec.toNat_ofNat]
  omega

/-- The two bytes of a word give the word back (R52). -/
theorem wordOfBytes_bits (w : Word) :
    wordOfBytes (BitVec.ofNat 8 (bits w 15 8)) (BitVec.ofNat 8 (bits w 7 0)) = w := by
  have := w.isLt
  apply BitVec.eq_of_toNat_eq
  rw [wordOfBytes_toNat]
  simp only [bits, BitVec.toNat_ofNat]
  omega

/-- Decoding the bytes of a word is decoding the word (R70, R74). -/
theorem decode_bytesOfWord (w : Word) (rest : List Byte) :
    decode (bytesOfWord w ++ rest) = (decodeWord w).map fun i => (i, rest) := by
  simp only [bytesOfWord, List.cons_append, List.nil_append, decode, wordOfBytes_bits]

theorem decodeTableWord_eq (nbits w : Nat) : decodeTableWord nbits w = (decodeWord (tableWord nbits w)).toOption := by
  have h := decode_bytesOfWord (tableWord nbits w) []
  rw [List.append_nil] at h
  rw [decodeTableWord, h]
  cases decodeWord (tableWord nbits w) <;> rfl

end Sys2Proof
end

