-- ==== Sys2Proof/Laws/Display.lean ====
section
/-! SUPPORT. The laws of the grid: reading a pixel after writing one, what one source bit and one sprite row do. -/

namespace Sys2Proof.Machine

@[simp] theorem Grid.pixel_clear (r : Fin 32) (c : Fin 64) : Grid.clear.pixel r c = false := by
  simp [Grid.clear, Grid.pixel]

/-- Two grids with the same pixels are the same grid. -/
theorem Grid.ext_pixel {g g' : Grid} (h : ∀ r c, g.pixel r c = g'.pixel r c) : g = g' := by
  apply Vector.ext
  intro r hr
  apply Vector.ext
  intro c hc
  exact h ⟨r, hr⟩ ⟨c, hc⟩

/-- A pixel write changes that pixel and no other (R8, R29). -/
theorem Grid.pixel_setPixel (g : Grid) (r r' : Fin 32) (c c' : Fin 64) (b : Bool) :
    (g.setPixel r c b).pixel r' c' = if r' = r ∧ c' = c then b else g.pixel r' c' := by
  simp only [Grid.pixel, Grid.setPixel, Vector.getElem_set, Fin.ext_iff]
  by_cases hr : r.val = r'.val
  · by_cases hc : c.val = c'.val <;> simp [hr, hc, Ne.symm]
  · simp [hr, eq_comm]

/-- What one source bit does to a pixel: XOR at its cell, nothing elsewhere (R183). -/
theorem pixel_drawBit (row col : Nat) (s : Bool) (acc : Grid × Bool) (r : Fin 32) (c : Fin 64) :
    (drawBit row col s acc).1.pixel r c =
      if r = Fin.ofNat 32 row ∧ c = Fin.ofNat 64 col then acc.1.pixel r c ^^ s else acc.1.pixel r c := by
  simp only [drawBit, Grid.pixel_setPixel]
  split
  next h => rw [h.1, h.2]
  next => rfl

/-- What one source bit does to the collision bit (R183). -/
theorem collided_drawBit (row col : Nat) (s : Bool) (acc : Grid × Bool) :
    (drawBit row col s acc).2 = (acc.2 || (s && acc.1.pixel (Fin.ofNat 32 row) (Fin.ofNat 64 col))) := rfl

/-- A coordinate enters a draw only through its remainder (R180, R185). -/
theorem drawBit_mod (row col : Nat) (s : Bool) (acc : Grid × Bool) :
    drawBit (row % 32) (col % 64) s acc = drawBit row col s acc := by
  have hr : Fin.ofNat 32 (row % 32) = Fin.ofNat 32 row := Fin.ext (Nat.mod_mod _ _)
  have hc : Fin.ofNat 64 (col % 64) = Fin.ofNat 64 col := Fin.ext (Nat.mod_mod _ _)
  simp only [drawBit, hr, hc]

/-- The first `k` source bits of a row: what each pixel becomes. -/
theorem pixel_drawBits (row vx : Nat) (b : Byte) (k : Nat) (hk : k ≤ 8) (acc : Grid × Bool) (r : Fin 32) (c : Fin 64) :
    let i := (c.val + 64 - vx % 64) % 64
    ((List.range k).foldl (fun acc i => drawBit row (vx + i) (b.getLsbD (7 - i)) acc) acc).1.pixel r c =
      if r.val = row % 32 ∧ i < k then acc.1.pixel r c ^^ b.getLsbD (7 - i) else acc.1.pixel r c := by
  intro i
  induction k with
  | zero => simp
  | succ k ih =>
    rw [List.range_succ, List.foldl_append, List.foldl_cons, List.foldl_nil, pixel_drawBit, ih (by omega)]
    have h1 : r = Fin.ofNat 32 row ↔ r.val = row % 32 := by simp [Fin.ext_iff]
    have h2 : c = Fin.ofNat 64 (vx + k) ↔ i = k := by simp [Fin.ext_iff]; omega
    simp only [h1, h2]
    by_cases hr : r.val = row % 32
    · by_cases hi : i = k
      · simp [hr, hi]
      · simp only [hr, hi, true_and, and_false, if_false]
        have : (i < k) ↔ (i < k + 1) := by omega
        simp only [this]
    · simp [hr]

/-- The first `k` source bits of a row: when they collide. -/
theorem collided_drawBits (row vx : Nat) (b : Byte) (k : Nat) (hk : k ≤ 8) (acc : Grid × Bool) :
    ((List.range k).foldl (fun acc i => drawBit row (vx + i) (b.getLsbD (7 - i)) acc) acc).2 = true ↔
      acc.2 = true ∨ ∃ i < k, b.getLsbD (7 - i) = true ∧ acc.1.pixel (Fin.ofNat 32 row) (Fin.ofNat 64 (vx + i)) = true := by
  induction k with
  | zero => simp
  | succ k ih =>
    have hp := pixel_drawBits row vx b k (by omega) acc (Fin.ofNat 32 row) (Fin.ofNat 64 (vx + k))
    rw [List.range_succ, List.foldl_append, List.foldl_cons, List.foldl_nil, collided_drawBit, hp]
    have : ¬ ((vx + k) % 64 + 64 - vx % 64) % 64 < k := by omega
    simp only [Bool.or_eq_true, ih (by omega), Bool.and_eq_true]
    have : ¬ (((Fin.ofNat 64 (vx + k)).val + 64 - vx % 64) % 64 < k) := this
    rw [if_neg (by tauto)]
    constructor
    · rintro ((h | ⟨i, hi, h⟩) | h)
      · exact .inl h
      · exact .inr ⟨i, by omega, h⟩
      · exact .inr ⟨k, by omega, h⟩
    · rintro (h | ⟨i, hi, h⟩)
      · exact .inl (.inl h)
      · rcases Nat.lt_or_ge i k with hk | hk
        · exact .inl (.inr ⟨i, hk, h⟩)
        · obtain rfl : i = k := by omega
          exact .inr h

/-- What one sprite row does to each pixel: `i` is the pixel's distance from the sprite's left edge (R183). -/
theorem pixel_drawRow (row vx : Nat) (b : Byte) (acc : Grid × Bool) (r : Fin 32) (c : Fin 64) :
    let i := (c.val + 64 - vx % 64) % 64
    (drawRow vx row b acc).1.pixel r c =
      if r.val = row % 32 ∧ i < 8 then acc.1.pixel r c ^^ b.getLsbD (7 - i) else acc.1.pixel r c :=
  pixel_drawBits row vx b 8 (Nat.le_refl _) acc r c

/-- One sprite row collides when one of its 1 bits meets a pixel that is 1 (R183). -/
theorem collided_drawRow (row vx : Nat) (b : Byte) (acc : Grid × Bool) :
    (drawRow vx row b acc).2 = true ↔ acc.2 = true ∨
      ∃ i < 8, b.getLsbD (7 - i) = true ∧ acc.1.pixel (Fin.ofNat 32 row) (Fin.ofNat 64 (vx + i)) = true :=
  collided_drawBits row vx b 8 (Nat.le_refl _) acc

end Sys2Proof.Machine
end

