-- ==== Sys2Proof/Laws/Memory.lean ====
section
/-! SUPPORT. The laws of the memory array: read after write, the canonical form, and what a group of accesses does. -/

namespace Sys2Proof.Machine

namespace Memory

@[simp] theorem peek_nil (a : Nat) : peek [] a = unlisted a := rfl

theorem peek_cons (k a : Nat) (b : Byte) (m : Memory) :
    peek ((k, b) :: m) a = if k = a then b else peek m a := rfl

@[simp] theorem wfFrom_nil (lo : Nat) : wfFrom lo [] = true := rfl

theorem wfFrom_cons (lo k : Nat) (b : Byte) (m : Memory) :
    wfFrom lo ((k, b) :: m) = true ↔ lo ≤ k ∧ k ≤ 0xFFF ∧ b ≠ unlisted k ∧ wfFrom (k + 1) m = true := by
  simp only [wfFrom, Bool.and_eq_true, decide_eq_true_eq, and_assoc]

/-- A canonical list that starts later starts early enough. -/
theorem wfFrom_mono {lo hi : Nat} {m : Memory} (h : wfFrom hi m = true) (hle : lo ≤ hi) : wfFrom lo m = true := by
  cases m with
  | nil => rfl
  | cons c m =>
    obtain ⟨k, b⟩ := c
    rw [wfFrom_cons] at h ⊢
    exact ⟨hle.trans h.1, h.2⟩

/-- Below its first address a canonical list lists nothing. -/
theorem peek_below {lo a : Nat} {m : Memory} (h : wfFrom lo m = true) (ha : a < lo) : peek m a = unlisted a := by
  induction m generalizing lo with
  | nil => rfl
  | cons c m ih =>
    obtain ⟨k, b⟩ := c
    rw [wfFrom_cons] at h
    rw [peek_cons, if_neg (by omega)]
    exact ih h.2.2.2 (by omega)

theorem peek_consCell_ne {a x : Nat} (b : Byte) (m : Memory) (h : x ≠ a) : peek (consCell a b m) x = peek m x := by
  unfold consCell
  split
  · rfl
  · rw [peek_cons, if_neg (Ne.symm h)]

theorem peek_consCell_self {a : Nat} (b : Byte) {m : Memory} (h : wfFrom (a + 1) m = true) :
    peek (consCell a b m) a = b := by
  unfold consCell
  split
  next hb => rw [peek_below h (Nat.lt_succ_self a), hb]
  next => rw [peek_cons, if_pos rfl]

theorem wfFrom_consCell {lo a : Nat} (b : Byte) {m : Memory} (hlo : lo ≤ a) (ha : a ≤ 0xFFF)
    (h : wfFrom (a + 1) m = true) : wfFrom lo (consCell a b m) = true := by
  unfold consCell
  split
  · exact wfFrom_mono h (by omega)
  next hb => exact (wfFrom_cons ..).2 ⟨hlo, ha, hb, h⟩

/-- A write leaves every other cell alone (R56). -/
theorem peek_poke_ne {a x : Nat} (m : Memory) (b : Byte) (h : x ≠ a) : peek (poke m a b) x = peek m x := by
  induction m with
  | nil => exact peek_consCell_ne b [] h
  | cons c m ih =>
    obtain ⟨k, c⟩ := c
    simp only [poke]
    split
    · exact peek_consCell_ne b _ h
    · split
      next hk => rw [peek_consCell_ne b m h, peek_cons, if_neg (by omega)]
      next => rw [peek_cons, peek_cons, ih]

/-- A read after a write to the same cell gives the value written (R56). -/
theorem peek_poke_self {lo a : Nat} {m : Memory} (b : Byte) (h : wfFrom lo m = true) : peek (poke m a b) a = b := by
  induction m generalizing lo with
  | nil => exact peek_consCell_self b (wfFrom_nil _)
  | cons c m ih =>
    obtain ⟨k, c⟩ := c
    have hk := (wfFrom_cons ..).1 h
    simp only [poke]
    split
    next hlt => exact peek_consCell_self b ((wfFrom_cons ..).2 ⟨hlt, hk.2⟩)
    · split
      next heq => exact peek_consCell_self b (heq ▸ hk.2.2.2)
      next hne => rw [peek_cons, if_neg (by omega)]; exact ih hk.2.2.2

/-- A write to a cell that exists keeps the canonical form. -/
theorem wfFrom_poke {lo a : Nat} {m : Memory} (b : Byte) (h : wfFrom lo m = true) (hlo : lo ≤ a) (ha : a ≤ 0xFFF) :
    wfFrom lo (poke m a b) = true := by
  induction m generalizing lo with
  | nil => exact wfFrom_consCell b hlo ha (wfFrom_nil _)
  | cons c m ih =>
    obtain ⟨k, c⟩ := c
    have hk := (wfFrom_cons ..).1 h
    simp only [poke]
    split
    next hlt => exact wfFrom_consCell b hlo ha ((wfFrom_cons ..).2 ⟨hlt, hk.2⟩)
    · split
      next heq => exact wfFrom_consCell b hlo ha (heq ▸ hk.2.2.2)
      next hlt hne => exact (wfFrom_cons ..).2 ⟨hk.1, hk.2.1, hk.2.2.1, ih hk.2.2.2 (by omega)⟩

theorem wf_poke {a : Nat} {m : Memory} (b : Byte) (h : m.wf = true) (ha : a ≤ 0xFFF) : (poke m a b).wf = true :=
  wfFrom_poke b h (Nat.zero_le a) ha

theorem wf_pokes {a : Nat} {m : Memory} {bs : List Byte} (h : m.wf = true) (ha : a + bs.length ≤ 0x1000) :
    (pokes m a bs).wf = true := by
  induction bs generalizing a m with
  | nil => exact h
  | cons b bs ih =>
    simp only [List.length_cons] at ha
    exact ih (wf_poke b h (by omega)) (by omega)

theorem peek_pokes_outside {a x : Nat} (m : Memory) (bs : List Byte) (h : x < a ∨ a + bs.length ≤ x) :
    peek (pokes m a bs) x = peek m x := by
  induction bs generalizing a m with
  | nil => rfl
  | cons b bs ih =>
    simp only [List.length_cons] at h
    rw [pokes, ih _ (by omega), peek_poke_ne m b (by omega)]

theorem peek_pokes_inside {a j : Nat} {m : Memory} {bs : List Byte} (hm : m.wf = true) (ha : a + bs.length ≤ 0x1000)
    (hj : j < bs.length) : peek (pokes m a bs) (a + j) = bs[j] := by
  induction bs generalizing a j m with
  | nil => simp at hj
  | cons b bs ih =>
    simp only [List.length_cons] at ha hj
    rw [pokes]
    cases j with
    | zero =>
      rw [peek_pokes_outside _ _ (Or.inl (by omega)), List.getElem_cons_zero]
      exact peek_poke_self b hm
    | succ j =>
      have := ih (a := a + 1) (j := j) (wf_poke (a := a) b hm (by omega)) (by omega) (by omega)
      rw [List.getElem_cons_succ, ← this]
      congr 1
      omega

end Memory

/-! ### The access primitives -/

theorem memRead_ok {a : Nat} (m : Memory) (h : a ≤ 0xFFF) : memRead m a = .ok (m.peek a) := by
  simp [memRead, resolve, h]

theorem memRead_error {a : Nat} (m : Memory) (h : 0xFFF < a) : memRead m a = .error a := by
  simp [memRead, resolve, Nat.not_le.2 h]

theorem memWrite_ok {a : Nat} (m : Memory) (b : Byte) (h : a ≤ 0xFFF) : memWrite m a b = .ok (m.poke a b) := by
  simp [memWrite, resolve, h]

theorem memWrite_error {a : Nat} (m : Memory) (b : Byte) (h : 0xFFF < a) : memWrite m a b = .error a := by
  simp [memWrite, resolve, Nat.not_le.2 h]

/-- Reads inside memory give the bytes there, lowest address first (R55, R57). -/
theorem memReads_ok {a n : Nat} (m : Memory) (h : a + n ≤ 0x1000) :
    memReads m a n = .ok ((List.range n).map fun j => m.peek (a + j)) := by
  induction n generalizing a with
  | zero => rfl
  | succ n ih =>
    rw [memReads, memRead_ok m (by omega), ih (by omega), List.range_succ_eq_map]
    simp [Function.comp_def, Nat.add_assoc, Nat.add_comm 1]

/-- Reads that run beyond memory fault with the lowest offending address (R57, R224). -/
theorem memReads_error {a n : Nat} (m : Memory) (hn : 0 < n) (h : 0x1000 < a + n) :
    memReads m a n = .error (max a 0x1000) := by
  induction n generalizing a with
  | zero => omega
  | succ n ih =>
    rw [memReads]
    by_cases ha : a ≤ 0xFFF
    · rw [memRead_ok m ha, ih (by omega) (by omega)]
      simp only [Except.error.injEq]
      omega
    · rw [memRead_error m (by omega)]
      simp only [Except.error.injEq]
      omega

/-- Writes inside memory are the writes one after the other (R56, R57). -/
theorem memWrites_ok {a : Nat} (m : Memory) {bs : List Byte} (h : a + bs.length ≤ 0x1000) :
    memWrites m a bs = .ok (m.pokes a bs) := by
  induction bs generalizing a m with
  | nil => rfl
  | cons b bs ih =>
    simp only [List.length_cons] at h
    rw [memWrites, memWrite_ok m b (by omega)]
    exact ih _ (by omega)

/-- Writes that run beyond memory fault with the lowest offending address (R57, R224). -/
theorem memWrites_error {a : Nat} (m : Memory) {bs : List Byte} (hn : 0 < bs.length) (h : 0x1000 < a + bs.length) :
    memWrites m a bs = .error (max a 0x1000) := by
  induction bs generalizing a m with
  | nil => simp at hn
  | cons b bs ih =>
    simp only [List.length_cons] at h
    rw [memWrites]
    by_cases ha : a ≤ 0xFFF
    · rw [memWrite_ok m b ha]
      dsimp only
      rw [ih _ (by omega) (by omega)]
      simp only [Except.error.injEq]
      omega
    · rw [memWrite_error m b (by omega)]
      simp only [Except.error.injEq]
      omega

/-- Every group of writes that does not fault keeps the canonical form. -/
theorem wf_memWrites {a : Nat} {m m' : Memory} {bs : List Byte} (hm : m.wf = true) (h : memWrites m a bs = .ok m') :
    m'.wf = true := by
  induction bs generalizing a m with
  | nil => cases h; exact hm
  | cons b bs ih =>
    rw [memWrites] at h
    by_cases ha : a ≤ 0xFFF
    · rw [memWrite_ok m b ha] at h
      exact ih (Memory.wf_poke b hm ha) h
    · rw [memWrite_error m b (by omega)] at h
      cases h

/-- The memory after reset has the canonical form. -/
theorem wf_reset : State.reset.mem.wf = true := rfl

end Sys2Proof.Machine
end

