-- ==== Sys2Proof/Laws/State.lean ====
section
/-! SUPPORT. One lemma per field per update of State, and what reading a register gives after each update. -/

namespace Sys2Proof.Machine

variable (s : State)

/-! ### setReg -/

@[simp] theorem State.setReg_v (x : Reg) (b : Byte) : (s.setReg x b).v = s.v.set x.val b := rfl
@[simp] theorem State.setReg_i (x : Reg) (b : Byte) : (s.setReg x b).i = s.i := rfl
@[simp] theorem State.setReg_pc (x : Reg) (b : Byte) : (s.setReg x b).pc = s.pc := rfl
@[simp] theorem State.setReg_depth (x : Reg) (b : Byte) : (s.setReg x b).depth = s.depth := rfl
@[simp] theorem State.setReg_stack (x : Reg) (b : Byte) : (s.setReg x b).stack = s.stack := rfl
@[simp] theorem State.setReg_dt (x : Reg) (b : Byte) : (s.setReg x b).dt = s.dt := rfl
@[simp] theorem State.setReg_st (x : Reg) (b : Byte) : (s.setReg x b).st = s.st := rfl
@[simp] theorem State.setReg_keys (x : Reg) (b : Byte) : (s.setReg x b).keys = s.keys := rfl
@[simp] theorem State.setReg_fb (x : Reg) (b : Byte) : (s.setReg x b).fb = s.fb := rfl
@[simp] theorem State.setReg_mem (x : Reg) (b : Byte) : (s.setReg x b).mem = s.mem := rfl
@[simp] theorem State.setReg_fault (x : Reg) (b : Byte) : (s.setReg x b).fault = s.fault := rfl
@[simp] theorem State.setReg_out (x : Reg) (b : Byte) : (s.setReg x b).out = s.out := rfl
@[simp] theorem State.setReg_started (x : Reg) (b : Byte) : (s.setReg x b).started = s.started := rfl
@[simp] theorem State.setReg_requests (x : Reg) (b : Byte) : (s.setReg x b).requests = s.requests := rfl
@[simp] theorem State.setReg_agenda (x : Reg) (b : Byte) : (s.setReg x b).agenda = s.agenda := rfl
@[simp] theorem State.setReg_draws (x : Reg) (b : Byte) : (s.setReg x b).draws = s.draws := rfl

/-! ### setRegFlag -/

@[simp] theorem State.setRegFlag_v (x : Reg) (b f : Byte) : (s.setRegFlag x b f).v = (s.v.set x.val b).set 15 f := rfl
@[simp] theorem State.setRegFlag_i (x : Reg) (b f : Byte) : (s.setRegFlag x b f).i = s.i := rfl
@[simp] theorem State.setRegFlag_pc (x : Reg) (b f : Byte) : (s.setRegFlag x b f).pc = s.pc := rfl
@[simp] theorem State.setRegFlag_depth (x : Reg) (b f : Byte) : (s.setRegFlag x b f).depth = s.depth := rfl
@[simp] theorem State.setRegFlag_stack (x : Reg) (b f : Byte) : (s.setRegFlag x b f).stack = s.stack := rfl
@[simp] theorem State.setRegFlag_dt (x : Reg) (b f : Byte) : (s.setRegFlag x b f).dt = s.dt := rfl
@[simp] theorem State.setRegFlag_st (x : Reg) (b f : Byte) : (s.setRegFlag x b f).st = s.st := rfl
@[simp] theorem State.setRegFlag_keys (x : Reg) (b f : Byte) : (s.setRegFlag x b f).keys = s.keys := rfl
@[simp] theorem State.setRegFlag_fb (x : Reg) (b f : Byte) : (s.setRegFlag x b f).fb = s.fb := rfl
@[simp] theorem State.setRegFlag_mem (x : Reg) (b f : Byte) : (s.setRegFlag x b f).mem = s.mem := rfl
@[simp] theorem State.setRegFlag_fault (x : Reg) (b f : Byte) : (s.setRegFlag x b f).fault = s.fault := rfl
@[simp] theorem State.setRegFlag_out (x : Reg) (b f : Byte) : (s.setRegFlag x b f).out = s.out := rfl
@[simp] theorem State.setRegFlag_started (x : Reg) (b f : Byte) : (s.setRegFlag x b f).started = s.started := rfl
@[simp] theorem State.setRegFlag_requests (x : Reg) (b f : Byte) : (s.setRegFlag x b f).requests = s.requests := rfl
@[simp] theorem State.setRegFlag_agenda (x : Reg) (b f : Byte) : (s.setRegFlag x b f).agenda = s.agenda := rfl
@[simp] theorem State.setRegFlag_draws (x : Reg) (b f : Byte) : (s.setRegFlag x b f).draws = s.draws := rfl

/-! ### setI -/

@[simp] theorem State.setI_v (w : Word) : (s.setI w).v = s.v := rfl
@[simp] theorem State.setI_i (w : Word) : (s.setI w).i = w := rfl
@[simp] theorem State.setI_pc (w : Word) : (s.setI w).pc = s.pc := rfl
@[simp] theorem State.setI_depth (w : Word) : (s.setI w).depth = s.depth := rfl
@[simp] theorem State.setI_stack (w : Word) : (s.setI w).stack = s.stack := rfl
@[simp] theorem State.setI_dt (w : Word) : (s.setI w).dt = s.dt := rfl
@[simp] theorem State.setI_st (w : Word) : (s.setI w).st = s.st := rfl
@[simp] theorem State.setI_keys (w : Word) : (s.setI w).keys = s.keys := rfl
@[simp] theorem State.setI_fb (w : Word) : (s.setI w).fb = s.fb := rfl
@[simp] theorem State.setI_mem (w : Word) : (s.setI w).mem = s.mem := rfl
@[simp] theorem State.setI_fault (w : Word) : (s.setI w).fault = s.fault := rfl
@[simp] theorem State.setI_out (w : Word) : (s.setI w).out = s.out := rfl
@[simp] theorem State.setI_started (w : Word) : (s.setI w).started = s.started := rfl
@[simp] theorem State.setI_requests (w : Word) : (s.setI w).requests = s.requests := rfl
@[simp] theorem State.setI_agenda (w : Word) : (s.setI w).agenda = s.agenda := rfl
@[simp] theorem State.setI_draws (w : Word) : (s.setI w).draws = s.draws := rfl

/-! ### advance -/

@[simp] theorem State.advance_v : (s.advance).v = s.v := rfl
@[simp] theorem State.advance_i : (s.advance).i = s.i := rfl
@[simp] theorem State.advance_pc : (s.advance).pc = s.pc + 2#16 := rfl
@[simp] theorem State.advance_depth : (s.advance).depth = s.depth := rfl
@[simp] theorem State.advance_stack : (s.advance).stack = s.stack := rfl
@[simp] theorem State.advance_dt : (s.advance).dt = s.dt := rfl
@[simp] theorem State.advance_st : (s.advance).st = s.st := rfl
@[simp] theorem State.advance_keys : (s.advance).keys = s.keys := rfl
@[simp] theorem State.advance_fb : (s.advance).fb = s.fb := rfl
@[simp] theorem State.advance_mem : (s.advance).mem = s.mem := rfl
@[simp] theorem State.advance_fault : (s.advance).fault = s.fault := rfl
@[simp] theorem State.advance_out : (s.advance).out = s.out := rfl
@[simp] theorem State.advance_started : (s.advance).started = s.started := rfl
@[simp] theorem State.advance_requests : (s.advance).requests = s.requests := rfl
@[simp] theorem State.advance_agenda : (s.advance).agenda = s.agenda := rfl
@[simp] theorem State.advance_draws : (s.advance).draws = s.draws := rfl

/-! ### skipIf -/

@[simp] theorem State.skipIf_v (c : Bool) : (s.skipIf c).v = s.v := rfl
@[simp] theorem State.skipIf_i (c : Bool) : (s.skipIf c).i = s.i := rfl
@[simp] theorem State.skipIf_pc (c : Bool) : (s.skipIf c).pc = s.pc + (if c then 4#16 else 2#16) := rfl
@[simp] theorem State.skipIf_depth (c : Bool) : (s.skipIf c).depth = s.depth := rfl
@[simp] theorem State.skipIf_stack (c : Bool) : (s.skipIf c).stack = s.stack := rfl
@[simp] theorem State.skipIf_dt (c : Bool) : (s.skipIf c).dt = s.dt := rfl
@[simp] theorem State.skipIf_st (c : Bool) : (s.skipIf c).st = s.st := rfl
@[simp] theorem State.skipIf_keys (c : Bool) : (s.skipIf c).keys = s.keys := rfl
@[simp] theorem State.skipIf_fb (c : Bool) : (s.skipIf c).fb = s.fb := rfl
@[simp] theorem State.skipIf_mem (c : Bool) : (s.skipIf c).mem = s.mem := rfl
@[simp] theorem State.skipIf_fault (c : Bool) : (s.skipIf c).fault = s.fault := rfl
@[simp] theorem State.skipIf_out (c : Bool) : (s.skipIf c).out = s.out := rfl
@[simp] theorem State.skipIf_started (c : Bool) : (s.skipIf c).started = s.started := rfl
@[simp] theorem State.skipIf_requests (c : Bool) : (s.skipIf c).requests = s.requests := rfl
@[simp] theorem State.skipIf_agenda (c : Bool) : (s.skipIf c).agenda = s.agenda := rfl
@[simp] theorem State.skipIf_draws (c : Bool) : (s.skipIf c).draws = s.draws := rfl

/-! ### jumpTo -/

@[simp] theorem State.jumpTo_v (w : Word) : (s.jumpTo w).v = s.v := rfl
@[simp] theorem State.jumpTo_i (w : Word) : (s.jumpTo w).i = s.i := rfl
@[simp] theorem State.jumpTo_pc (w : Word) : (s.jumpTo w).pc = w := rfl
@[simp] theorem State.jumpTo_depth (w : Word) : (s.jumpTo w).depth = s.depth := rfl
@[simp] theorem State.jumpTo_stack (w : Word) : (s.jumpTo w).stack = s.stack := rfl
@[simp] theorem State.jumpTo_dt (w : Word) : (s.jumpTo w).dt = s.dt := rfl
@[simp] theorem State.jumpTo_st (w : Word) : (s.jumpTo w).st = s.st := rfl
@[simp] theorem State.jumpTo_keys (w : Word) : (s.jumpTo w).keys = s.keys := rfl
@[simp] theorem State.jumpTo_fb (w : Word) : (s.jumpTo w).fb = s.fb := rfl
@[simp] theorem State.jumpTo_mem (w : Word) : (s.jumpTo w).mem = s.mem := rfl
@[simp] theorem State.jumpTo_fault (w : Word) : (s.jumpTo w).fault = s.fault := rfl
@[simp] theorem State.jumpTo_out (w : Word) : (s.jumpTo w).out = s.out := rfl
@[simp] theorem State.jumpTo_started (w : Word) : (s.jumpTo w).started = s.started := rfl
@[simp] theorem State.jumpTo_requests (w : Word) : (s.jumpTo w).requests = s.requests := rfl
@[simp] theorem State.jumpTo_agenda (w : Word) : (s.jumpTo w).agenda = s.agenda := rfl
@[simp] theorem State.jumpTo_draws (w : Word) : (s.jumpTo w).draws = s.draws := rfl

/-! ### raise -/

@[simp] theorem State.raise_v (c : Cause) (o : Option Word) (n : Option Nat) : (s.raise c o n).v = s.v := rfl
@[simp] theorem State.raise_i (c : Cause) (o : Option Word) (n : Option Nat) : (s.raise c o n).i = s.i := rfl
@[simp] theorem State.raise_pc (c : Cause) (o : Option Word) (n : Option Nat) : (s.raise c o n).pc = s.pc := rfl
@[simp] theorem State.raise_depth (c : Cause) (o : Option Word) (n : Option Nat) : (s.raise c o n).depth = s.depth := rfl
@[simp] theorem State.raise_stack (c : Cause) (o : Option Word) (n : Option Nat) : (s.raise c o n).stack = s.stack := rfl
@[simp] theorem State.raise_dt (c : Cause) (o : Option Word) (n : Option Nat) : (s.raise c o n).dt = s.dt := rfl
@[simp] theorem State.raise_st (c : Cause) (o : Option Word) (n : Option Nat) : (s.raise c o n).st = s.st := rfl
@[simp] theorem State.raise_keys (c : Cause) (o : Option Word) (n : Option Nat) : (s.raise c o n).keys = s.keys := rfl
@[simp] theorem State.raise_fb (c : Cause) (o : Option Word) (n : Option Nat) : (s.raise c o n).fb = s.fb := rfl
@[simp] theorem State.raise_mem (c : Cause) (o : Option Word) (n : Option Nat) : (s.raise c o n).mem = s.mem := rfl
@[simp] theorem State.raise_fault (c : Cause) (o : Option Word) (n : Option Nat) : (s.raise c o n).fault = some (s.faultRecord c o n) := rfl
@[simp] theorem State.raise_out (c : Cause) (o : Option Word) (n : Option Nat) : (s.raise c o n).out = .fault (s.faultRecord c o n) := rfl
@[simp] theorem State.raise_started (c : Cause) (o : Option Word) (n : Option Nat) : (s.raise c o n).started = s.started := rfl
@[simp] theorem State.raise_requests (c : Cause) (o : Option Word) (n : Option Nat) : (s.raise c o n).requests = s.requests := rfl
@[simp] theorem State.raise_agenda (c : Cause) (o : Option Word) (n : Option Nat) : (s.raise c o n).agenda = s.agenda := rfl
@[simp] theorem State.raise_draws (c : Cause) (o : Option Word) (n : Option Nat) : (s.raise c o n).draws = s.draws := rfl

/-! ### consumeDraw -/

@[simp] theorem State.consumeDraw_v : (s.consumeDraw).v = s.v := rfl
@[simp] theorem State.consumeDraw_i : (s.consumeDraw).i = s.i := rfl
@[simp] theorem State.consumeDraw_pc : (s.consumeDraw).pc = s.pc := rfl
@[simp] theorem State.consumeDraw_depth : (s.consumeDraw).depth = s.depth := rfl
@[simp] theorem State.consumeDraw_stack : (s.consumeDraw).stack = s.stack := rfl
@[simp] theorem State.consumeDraw_dt : (s.consumeDraw).dt = s.dt := rfl
@[simp] theorem State.consumeDraw_st : (s.consumeDraw).st = s.st := rfl
@[simp] theorem State.consumeDraw_keys : (s.consumeDraw).keys = s.keys := rfl
@[simp] theorem State.consumeDraw_fb : (s.consumeDraw).fb = s.fb := rfl
@[simp] theorem State.consumeDraw_mem : (s.consumeDraw).mem = s.mem := rfl
@[simp] theorem State.consumeDraw_fault : (s.consumeDraw).fault = s.fault := rfl
@[simp] theorem State.consumeDraw_out : (s.consumeDraw).out = s.out := rfl
@[simp] theorem State.consumeDraw_started : (s.consumeDraw).started = s.started := rfl
@[simp] theorem State.consumeDraw_requests : (s.consumeDraw).requests = s.requests := rfl
@[simp] theorem State.consumeDraw_agenda : (s.consumeDraw).agenda = s.agenda := rfl
@[simp] theorem State.consumeDraw_draws : (s.consumeDraw).draws = s.draws + 1 := rfl

/-! ### takeKey -/

@[simp] theorem State.takeKey_v (x : Reg) (k : Key) : (s.takeKey x k).v = s.v.set x.val (BitVec.ofNat 8 k.val) := rfl
@[simp] theorem State.takeKey_i (x : Reg) (k : Key) : (s.takeKey x k).i = s.i := rfl
@[simp] theorem State.takeKey_pc (x : Reg) (k : Key) : (s.takeKey x k).pc = s.pc + 2#16 := rfl
@[simp] theorem State.takeKey_depth (x : Reg) (k : Key) : (s.takeKey x k).depth = s.depth := rfl
@[simp] theorem State.takeKey_stack (x : Reg) (k : Key) : (s.takeKey x k).stack = s.stack := rfl
@[simp] theorem State.takeKey_dt (x : Reg) (k : Key) : (s.takeKey x k).dt = s.dt := rfl
@[simp] theorem State.takeKey_st (x : Reg) (k : Key) : (s.takeKey x k).st = s.st := rfl
@[simp] theorem State.takeKey_keys (x : Reg) (k : Key) : (s.takeKey x k).keys = s.keys := rfl
@[simp] theorem State.takeKey_fb (x : Reg) (k : Key) : (s.takeKey x k).fb = s.fb := rfl
@[simp] theorem State.takeKey_mem (x : Reg) (k : Key) : (s.takeKey x k).mem = s.mem := rfl
@[simp] theorem State.takeKey_fault (x : Reg) (k : Key) : (s.takeKey x k).fault = s.fault := rfl
@[simp] theorem State.takeKey_out (x : Reg) (k : Key) : (s.takeKey x k).out = s.out := rfl
@[simp] theorem State.takeKey_started (x : Reg) (k : Key) : (s.takeKey x k).started = s.started := rfl
@[simp] theorem State.takeKey_requests (x : Reg) (k : Key) : (s.takeKey x k).requests = s.requests := rfl
@[simp] theorem State.takeKey_agenda (x : Reg) (k : Key) : (s.takeKey x k).agenda = s.agenda := rfl
@[simp] theorem State.takeKey_draws (x : Reg) (k : Key) : (s.takeKey x k).draws = s.draws := rfl

/-! ### beginStep -/

@[simp] theorem State.beginStep_v : (s.beginStep).v = s.v := rfl
@[simp] theorem State.beginStep_i : (s.beginStep).i = s.i := rfl
@[simp] theorem State.beginStep_pc : (s.beginStep).pc = s.pc := rfl
@[simp] theorem State.beginStep_depth : (s.beginStep).depth = s.depth := rfl
@[simp] theorem State.beginStep_stack : (s.beginStep).stack = s.stack := rfl
@[simp] theorem State.beginStep_dt : (s.beginStep).dt = s.dt := rfl
@[simp] theorem State.beginStep_st : (s.beginStep).st = s.st := rfl
@[simp] theorem State.beginStep_keys : (s.beginStep).keys = s.keys := rfl
@[simp] theorem State.beginStep_fb : (s.beginStep).fb = s.fb := rfl
@[simp] theorem State.beginStep_mem : (s.beginStep).mem = s.mem := rfl
@[simp] theorem State.beginStep_fault : (s.beginStep).fault = s.fault := rfl
@[simp] theorem State.beginStep_out : (s.beginStep).out = .next := rfl
@[simp] theorem State.beginStep_started : (s.beginStep).started = true := rfl
@[simp] theorem State.beginStep_requests : (s.beginStep).requests = s.requests := rfl
@[simp] theorem State.beginStep_agenda : (s.beginStep).agenda = s.agenda := rfl
@[simp] theorem State.beginStep_draws : (s.beginStep).draws = s.draws := rfl

/-! ### tick -/

@[simp] theorem tick_v : (tick s).v = s.v := rfl
@[simp] theorem tick_i : (tick s).i = s.i := rfl
@[simp] theorem tick_pc : (tick s).pc = s.pc := rfl
@[simp] theorem tick_depth : (tick s).depth = s.depth := rfl
@[simp] theorem tick_stack : (tick s).stack = s.stack := rfl
@[simp] theorem tick_dt : (tick s).dt = countDown s.dt := rfl
@[simp] theorem tick_st : (tick s).st = countDown s.st := rfl
@[simp] theorem tick_keys : (tick s).keys = s.keys := rfl
@[simp] theorem tick_fb : (tick s).fb = s.fb := rfl
@[simp] theorem tick_mem : (tick s).mem = s.mem := rfl
@[simp] theorem tick_fault : (tick s).fault = s.fault := rfl
@[simp] theorem tick_out : (tick s).out = if s.st = 1 then .tonePulse else .silent := rfl
@[simp] theorem tick_started : (tick s).started = s.started := rfl
@[simp] theorem tick_requests : (tick s).requests = s.requests := rfl
@[simp] theorem tick_agenda : (tick s).agenda = s.agenda := rfl
@[simp] theorem tick_draws : (tick s).draws = s.draws := rfl

/-! ### setKey -/

@[simp] theorem setKey_v (k : Key) (p : Bool) : (setKey k p s).v = s.v := rfl
@[simp] theorem setKey_i (k : Key) (p : Bool) : (setKey k p s).i = s.i := rfl
@[simp] theorem setKey_pc (k : Key) (p : Bool) : (setKey k p s).pc = s.pc := rfl
@[simp] theorem setKey_depth (k : Key) (p : Bool) : (setKey k p s).depth = s.depth := rfl
@[simp] theorem setKey_stack (k : Key) (p : Bool) : (setKey k p s).stack = s.stack := rfl
@[simp] theorem setKey_dt (k : Key) (p : Bool) : (setKey k p s).dt = s.dt := rfl
@[simp] theorem setKey_st (k : Key) (p : Bool) : (setKey k p s).st = s.st := rfl
@[simp] theorem setKey_keys (k : Key) (p : Bool) : (setKey k p s).keys = s.keys.set k.val p := rfl
@[simp] theorem setKey_fb (k : Key) (p : Bool) : (setKey k p s).fb = s.fb := rfl
@[simp] theorem setKey_mem (k : Key) (p : Bool) : (setKey k p s).mem = s.mem := rfl
@[simp] theorem setKey_fault (k : Key) (p : Bool) : (setKey k p s).fault = s.fault := rfl
@[simp] theorem setKey_out (k : Key) (p : Bool) : (setKey k p s).out = .silent := rfl
@[simp] theorem setKey_started (k : Key) (p : Bool) : (setKey k p s).started = s.started := rfl
@[simp] theorem setKey_requests (k : Key) (p : Bool) : (setKey k p s).requests = s.requests := rfl
@[simp] theorem setKey_agenda (k : Key) (p : Bool) : (setKey k p s).agenda = s.agenda := rfl
@[simp] theorem setKey_draws (k : Key) (p : Bool) : (setKey k p s).draws = s.draws := rfl

/-! ### snapshot -/

@[simp] theorem snapshot_v : (snapshot s).v = s.v := rfl
@[simp] theorem snapshot_i : (snapshot s).i = s.i := rfl
@[simp] theorem snapshot_pc : (snapshot s).pc = s.pc := rfl
@[simp] theorem snapshot_depth : (snapshot s).depth = s.depth := rfl
@[simp] theorem snapshot_stack : (snapshot s).stack = s.stack := rfl
@[simp] theorem snapshot_dt : (snapshot s).dt = s.dt := rfl
@[simp] theorem snapshot_st : (snapshot s).st = s.st := rfl
@[simp] theorem snapshot_keys : (snapshot s).keys = s.keys := rfl
@[simp] theorem snapshot_fb : (snapshot s).fb = s.fb := rfl
@[simp] theorem snapshot_mem : (snapshot s).mem = s.mem := rfl
@[simp] theorem snapshot_fault : (snapshot s).fault = s.fault := rfl
@[simp] theorem snapshot_out : (snapshot s).out = .snapshot s.fb := rfl
@[simp] theorem snapshot_started : (snapshot s).started = s.started := rfl
@[simp] theorem snapshot_requests : (snapshot s).requests = s.requests := rfl
@[simp] theorem snapshot_agenda : (snapshot s).agenda = s.agenda := rfl
@[simp] theorem snapshot_draws : (snapshot s).draws = s.draws := rfl

/-! ### Reading a register -/

theorem State.reg_setReg (x y : Reg) (b : Byte) : (s.setReg x b).reg y = if y = x then b else s.reg y := by
  simp only [State.reg, State.setReg, Vector.getElem_set, Fin.ext_iff, eq_comm]

@[simp] theorem State.reg_setReg_self (x : Reg) (b : Byte) : (s.setReg x b).reg x = b := by
  simp [State.reg_setReg]

theorem State.reg_setRegFlag (x y : Reg) (b f : Byte) :
    (s.setRegFlag x b f).reg y = if y = regF then f else if y = x then b else s.reg y := by
  simp only [State.setRegFlag, State.reg_setReg]

@[simp] theorem State.reg_setI (y : Reg) (w : Word) : (s.setI w).reg y = s.reg y := rfl
@[simp] theorem State.reg_advance (y : Reg) : (s.advance).reg y = s.reg y := rfl
@[simp] theorem State.reg_skipIf (y : Reg) (c : Bool) : (s.skipIf c).reg y = s.reg y := rfl
@[simp] theorem State.reg_jumpTo (y : Reg) (w : Word) : (s.jumpTo w).reg y = s.reg y := rfl
@[simp] theorem State.reg_raise (y : Reg) (c : Cause) (o : Option Word) (n : Option Nat) : (s.raise c o n).reg y = s.reg y := rfl
@[simp] theorem State.reg_consumeDraw (y : Reg) : (s.consumeDraw).reg y = s.reg y := rfl
@[simp] theorem State.reg_beginStep (y : Reg) : (s.beginStep).reg y = s.reg y := rfl

/-! ### The stack -/

/-- All that a push can do (R24, R113). -/
theorem State.push_cases (w : Word) :
    (s.depth.val = 16 ∧ s.push w = none) ∨
    ∃ h : s.depth.val < 16,
      s.push w = some { s with stack := s.stack.set s.depth.val w, depth := ⟨s.depth.val + 1, by omega⟩ } := by
  by_cases h : s.depth.val < 16
  · exact .inr ⟨h, by simp [State.push, h]⟩
  · exact .inl ⟨by omega, by simp [State.push, h]⟩

/-- All that a pop can do (R24, R111). -/
theorem State.pop_cases :
    (s.depth.val = 0 ∧ s.pop = none) ∨
    ∃ h : 0 < s.depth.val,
      s.pop = some (s.stack[s.depth.val - 1]'(by omega), { s with depth := ⟨s.depth.val - 1, by omega⟩ }) := by
  by_cases h : 0 < s.depth.val
  · exact .inr ⟨h, by simp [State.pop, h]⟩
  · exact .inl ⟨by omega, by simp [State.pop, h]⟩

end Sys2Proof.Machine
end

