-- ==== Sys2Proof/Laws/Ops.lean ====
section
/-! SUPPORT. All that the shared operations can do: an access that may fault, a fetch, a key skip, the choice of a key. -/

namespace Sys2Proof.Machine

/-- An instruction with accesses finishes with their result, or raises AddressFault and changes nothing else (R57, R222, R224). -/
theorem withAccess_cases {α : Type} (i : Instr) (s : State) (r : Except Nat α) (finish : α → State) :
    (∃ a, r = .ok a ∧ withAccess i s r finish = .next (finish a)) ∨
    ∃ e, r = .error e ∧
      withAccess i s r finish = .next (s.raise .addressFault (some (encodeWord i)) (some e)) := by
  cases r with
  | ok a => exact .inl ⟨a, rfl, rfl⟩
  | error e => exact .inr ⟨e, rfl, rfl⟩

/-- A fetch inside memory gives the big-endian word (R52, R101). -/
theorem fetch_ok (m : Memory) (pc : Word) (h : pc.toNat < 0xFFF) :
    fetch m pc = .ok (wordOfBytes (m.peek pc.toNat) (m.peek (pc.toNat + 1))) := by
  simp only [fetch, memRead_ok m (show pc.toNat ≤ 0xFFF by omega), memRead_ok m (show pc.toNat + 1 ≤ 0xFFF by omega)]

/-- A fetch beyond 0xFFE faults with the lowest address that does not exist (R101). -/
theorem fetch_error (m : Memory) (pc : Word) (h : 0xFFE < pc.toNat) :
    fetch m pc = .error (max pc.toNat 0x1000) := by
  by_cases h' : pc.toNat ≤ 0xFFF
  · simp only [fetch, memRead_ok m h', memRead_error m (show 0xFFF < pc.toNat + 1 by omega)]
    congr 1
    omega
  · simp only [fetch, memRead_error m (show 0xFFF < pc.toNat by omega)]
    congr 1
    omega

/-- All that a key skip can do (R200, R201, R227). -/
theorem keySkip_cases (i : Instr) (x : Reg) (f : Bool → Bool) (s : State) :
    (∃ h : (s.reg x).toNat < 16, keySkip i x f s = .next (s.skipIf (f (s.keys[(s.reg x).toNat]'h)))) ∨
    (15 < (s.reg x).toNat ∧
      keySkip i x f s = .next (s.raise .keyIndexFault (some (encodeWord i)) (some (s.reg x).toNat))) := by
  by_cases h : (s.reg x).toNat < 16
  · exact .inl ⟨h, by simp [keySkip, h]⟩
  · exact .inr ⟨by omega, by simp [keySkip, h, raiseBy]⟩

theorem mem_pressed (s : State) (k : Key) : k ∈ s.pressed ↔ s.keys[k.val] = true := by
  simp [State.pressed]

/-- The free choice is one of the keys it chooses among (R212). -/
theorem pickFrom_mem (s : State) (k : Key) (ks : List Key) : s.pickFrom k ks ∈ k :: ks := List.getElem_mem _

/-- All that LD Vx, K can do (R210, R211, R212). -/
theorem execLdVxK_cases (x : Reg) (s : State) :
    (s.pressed = [] ∧ execLdVxK x s = .next { s with out := .wait }) ∨
    (∃ k, s.pressed = [k] ∧ execLdVxK x s = .next (s.takeKey x k)) ∨
    ∃ k k' ks, s.pressed = k :: k' :: ks ∧
      execLdVxK x s = .next (s.takeKey x (s.pickFrom k (k' :: ks))).consumeDraw := by
  rcases h : s.pressed with _ | ⟨k, _ | ⟨k', ks⟩⟩
  · exact .inl ⟨rfl, by simp [execLdVxK, h]⟩
  · exact .inr (.inl ⟨k, rfl, by simp [execLdVxK, h]⟩)
  · exact .inr (.inr ⟨k, k', ks, rfl, by simp [execLdVxK, h]⟩)

/-! ### Blocks of registers -/

theorem loadRegs_outside (v : Vector Byte 16) (j : Nat) (bs : List Byte) (r : Reg) (h : r.val < j ∨ j + bs.length ≤ r.val) :
    (loadRegs v j bs)[r.val] = v[r.val] := by
  induction bs generalizing v j with
  | nil => rfl
  | cons b bs ih =>
    simp only [List.length_cons] at h
    rw [loadRegs, ih _ _ (by omega), Vector.getElem_setIfInBounds_ne (h := by omega)]

theorem loadRegs_inside (v : Vector Byte 16) (j : Nat) (bs : List Byte) (r : Reg) (h : j ≤ r.val)
    (h' : r.val - j < bs.length) : (loadRegs v j bs)[r.val] = bs[r.val - j] := by
  induction bs generalizing v j with
  | nil => simp at h'
  | cons b bs ih =>
    simp only [List.length_cons] at h'
    rw [loadRegs]
    by_cases hj : j = r.val
    · subst hj
      rw [loadRegs_outside _ _ _ _ (Or.inl (Nat.lt_succ_self _))]
      simp
    · rw [ih _ _ (by omega) (by omega), List.getElem_cons]
      simp only [show r.val - j ≠ 0 by omega, dite_false]
      congr 1

theorem length_regsUpTo (s : State) (x : Reg) : (s.regsUpTo x).length = x.val + 1 := by
  simp [State.regsUpTo]

theorem getElem_regsUpTo (s : State) (x : Reg) (j : Nat) (h : j < (s.regsUpTo x).length) :
    (s.regsUpTo x)[j] = s.v[j]'(by rw [length_regsUpTo] at h; omega) := by
  simp [State.regsUpTo]

end Sys2Proof.Machine
end

