-- ==== Sys2Proof/Laws/Step.lean ====
section
/-! SUPPORT. All that a step can do, case by case, which action is due, and the step that runs a placed word. -/

namespace Sys2Proof.Machine

/-! ### The action that is due -/

theorem State.due_cons {s : State} {r : Request} {rest : List Request} (h : s.requests = r :: rest) :
    s.due = r ∧ s.taken = { s with requests := rest } := by
  simp only [State.due, State.taken, h, and_self]

theorem State.due_engine {s : State} (h : s.requests = []) (ha : s.agenda = .engine) : s.due = .step ∧ s.taken = s := by
  simp only [State.due, State.taken, h, ha, and_self]

theorem State.due_free {s : State} {turn : Nat} (h : s.requests = []) (ha : s.agenda = .free turn) :
    s.due = Config.schedule turn ∧ s.taken = { s with agenda := .free (turn + 1) } := by
  simp only [State.due, State.taken, h, ha, and_self]

/-- Taking the action that is due changes the list or the agenda and nothing else. -/
theorem State.taken_eq (s : State) : ∃ rs a, s.taken = { s with requests := rs, agenda := a } := by
  unfold State.taken
  split <;> exact ⟨_, _, rfl⟩

@[simp] theorem State.taken_v (s : State) : s.taken.v = s.v := by
  obtain ⟨_, _, h⟩ := s.taken_eq
  rw [h]
@[simp] theorem State.taken_i (s : State) : s.taken.i = s.i := by
  obtain ⟨_, _, h⟩ := s.taken_eq
  rw [h]
@[simp] theorem State.taken_pc (s : State) : s.taken.pc = s.pc := by
  obtain ⟨_, _, h⟩ := s.taken_eq
  rw [h]
@[simp] theorem State.taken_depth (s : State) : s.taken.depth = s.depth := by
  obtain ⟨_, _, h⟩ := s.taken_eq
  rw [h]
@[simp] theorem State.taken_stack (s : State) : s.taken.stack = s.stack := by
  obtain ⟨_, _, h⟩ := s.taken_eq
  rw [h]
@[simp] theorem State.taken_dt (s : State) : s.taken.dt = s.dt := by
  obtain ⟨_, _, h⟩ := s.taken_eq
  rw [h]
@[simp] theorem State.taken_st (s : State) : s.taken.st = s.st := by
  obtain ⟨_, _, h⟩ := s.taken_eq
  rw [h]
@[simp] theorem State.taken_keys (s : State) : s.taken.keys = s.keys := by
  obtain ⟨_, _, h⟩ := s.taken_eq
  rw [h]
@[simp] theorem State.taken_fb (s : State) : s.taken.fb = s.fb := by
  obtain ⟨_, _, h⟩ := s.taken_eq
  rw [h]
@[simp] theorem State.taken_mem (s : State) : s.taken.mem = s.mem := by
  obtain ⟨_, _, h⟩ := s.taken_eq
  rw [h]
@[simp] theorem State.taken_fault (s : State) : s.taken.fault = s.fault := by
  obtain ⟨_, _, h⟩ := s.taken_eq
  rw [h]
@[simp] theorem State.taken_out (s : State) : s.taken.out = s.out := by
  obtain ⟨_, _, h⟩ := s.taken_eq
  rw [h]
@[simp] theorem State.taken_started (s : State) : s.taken.started = s.started := by
  obtain ⟨_, _, h⟩ := s.taken_eq
  rw [h]
@[simp] theorem State.taken_draws (s : State) : s.taken.draws = s.draws := by
  obtain ⟨_, _, h⟩ := s.taken_eq
  rw [h]

/-- A step serves the action that is due. -/
theorem step_due {s : State} {r : Request} (h : s.due = r) : step s = serve r s.taken := by
  rw [step, h]

/-- All that the engine can do (R100, R107). -/
theorem engineStep_cases (s : State) :
    (∃ r, s.fault = some r ∧ engineStep s = .fault (.halted r)) ∨
    (s.fault = none ∧ 0xFFE < s.pc.toNat ∧
      engineStep s = .next (s.beginStep.raise .addressFault none (some (max s.pc.toNat 0x1000)))) ∨
    (s.fault = none ∧ s.pc.toNat < 0xFFF ∧ ∃ w, w = wordOfBytes (s.mem.peek s.pc.toNat) (s.mem.peek (s.pc.toNat + 1)) ∧
      ((∃ i, decodeWord w = .ok i ∧ engineStep s = exec i s.beginStep) ∨
       (∃ e, decodeWord w = .error e ∧
        engineStep s = .next (s.beginStep.raise .decodeFault (some w) (some w.toNat))))) := by
  rcases hf : s.fault with _ | r
  · by_cases hpc : s.pc.toNat < 0xFFF
    · refine .inr (.inr ⟨rfl, hpc, _, rfl, ?_⟩)
      rcases hd : decodeWord (wordOfBytes (s.mem.peek s.pc.toNat) (s.mem.peek (s.pc.toNat + 1))) with e | i
      · exact .inr ⟨e, rfl, by simp only [engineStep, hf, fetch_ok _ _ hpc, runWord, hd]⟩
      · exact .inl ⟨i, rfl, by simp only [engineStep, hf, fetch_ok _ _ hpc, runWord, hd]⟩
    · exact .inr (.inl ⟨rfl, by omega, by simp only [engineStep, hf, fetch_error _ _ (show 0xFFE < s.pc.toNat by omega)]⟩)
  · exact .inl ⟨r, rfl, by simp only [engineStep, hf]⟩

/-- All that a load can do (R264, R265). -/
theorem load_cases (image : List Byte) (s : State) :
    (image.length ≤ 3584 ∧ s.fault = none ∧ s.started = false ∧
      load image s = .next { s with mem := s.mem.pokes 0x200 image, out := .silent }) ∨
    ∃ r, load image s = .refused r := by
  by_cases hl : image.length ≤ 3584
  · by_cases hf : s.fault = none
    · by_cases hs : s.started = false
      · exact .inl ⟨hl, hf, hs, by simp [load, hf, hs, Nat.not_lt.2 hl]⟩
      · exact .inr ⟨.loadAfterStep, by simp [load, hf, hs, Nat.not_lt.2 hl]⟩
    · refine .inr ⟨.loadOnFaulted, ?_⟩
      simp [load, Nat.not_lt.2 hl, Option.isSome_iff_ne_none, hf]
  · exact .inr ⟨.loadTooLong image.length, by simp [load, Nat.not_le.1 hl]⟩

/-- All that one action can do: the engine's step, or the service of a request of another agent (R10, R39). -/
theorem step_cases (s : State) :
    (s.due = .step ∧ step s = engineStep s.taken) ∨
    (s.due = .tick ∧ step s = .next (tick s.taken)) ∨
    (∃ k p, s.due = .setKey k p ∧ step s = .next (setKey k p s.taken)) ∨
    (s.due = .snapshot ∧ step s = .next (snapshot s.taken)) ∨
    (∃ image, s.due = .load image ∧ step s = load image s.taken) ∨
    ∃ p, s.due = .reset p ∧ step s = .next (resetRequest p s.taken) := by
  rcases h : s.due with p | image | _ | _ | ⟨k, p⟩ | _
  · exact .inr (.inr (.inr (.inr (.inr ⟨p, rfl, step_due h⟩))))
  · exact .inr (.inr (.inr (.inr (.inl ⟨image, rfl, step_due h⟩))))
  · exact .inl ⟨rfl, step_due h⟩
  · exact .inr (.inl ⟨rfl, step_due h⟩)
  · exact .inr (.inr (.inl ⟨k, p, rfl, step_due h⟩))
  · exact .inr (.inr (.inr (.inl ⟨rfl, step_due h⟩)))

/-- A run of one more step that goes on is a step that goes on and the rest of the run. -/
theorem run_succ {M : Host.Core} {k : Nat} {s t : M.State} (h : M.run (k + 1) s = .next t) :
    ∃ u, M.step s = .next u ∧ M.run k u = .next t := by
  rw [Host.Core.run] at h
  cases hs : M.step s with
  | next u => rw [hs] at h; exact ⟨u, rfl, h⟩
  | fault r => rw [hs] at h; cases h
  | refused r => rw [hs] at h; cases h

/-- The step after a word has been placed runs that word, from any state whose memory is canonical. -/
theorem step_withFetchWord {s : State} (nbits w : Nat) (hm : s.mem.wf = true) :
    step (s.withFetchWord nbits w) = runWord (tableWord nbits w) (s.withFetchWord nbits w).taken.beginStep := by
  have hp : (fetchPoint s).toNat < 0xFFF := by
    unfold fetchPoint
    split
    · assumption
    · decide
  have hb0 : Memory.peek (s.mem.pokes (fetchPoint s).toNat (bytesOfWord (tableWord nbits w))) (fetchPoint s).toNat
      = BitVec.ofNat 8 (bits (tableWord nbits w) 15 8) := by
    have h := Memory.peek_pokes_inside (a := (fetchPoint s).toNat) (j := 0)
      (bs := bytesOfWord (tableWord nbits w)) hm (by simp [bytesOfWord]; omega) (by simp [bytesOfWord])
    simpa [bytesOfWord] using h
  have hb1 : Memory.peek (s.mem.pokes (fetchPoint s).toNat (bytesOfWord (tableWord nbits w))) ((fetchPoint s).toNat + 1)
      = BitVec.ofNat 8 (bits (tableWord nbits w) 7 0) := by
    have h := Memory.peek_pokes_inside (a := (fetchPoint s).toNat) (j := 1)
      (bs := bytesOfWord (tableWord nbits w)) hm (by simp [bytesOfWord]; omega) (by simp [bytesOfWord])
    simpa [bytesOfWord] using h
  have hf := fetch_ok (s.mem.pokes (fetchPoint s).toNat (bytesOfWord (tableWord nbits w))) (fetchPoint s) hp
  rw [hb0, hb1, wordOfBytes_bits] at hf
  rw [step_due (r := .step) rfl]
  simp only [serve, engineStep, State.taken_fault, State.taken_mem, State.taken_pc, State.withFetchWord, placeWord, hf]

end Sys2Proof.Machine
end

