-- ==== Sys2Proof/Laws/Exec.lean ====
section
/-! SUPPORT. All that an instruction can do with the latch, the outcome and what the other agents own (R11, R34, R222): it completes and
leaves them all, it waits, or it raises a fault with its own word as the opcode. -/

namespace Sys2Proof.Machine

/-- The two states have the same key flags, the same actions still to come and the same mark of a Step taken. -/
def SameInputs (s t : State) : Prop :=
  t.keys = s.keys ∧ t.requests = s.requests ∧ t.agenda = s.agenda ∧ t.started = s.started

/-- The three ways an instruction ends. -/
def Ends (i : Instr) (s t : State) : Prop :=
  (t.fault = s.fault ∧ t.out = s.out ∧ SameInputs s t) ∨ t = { s with out := .wait } ∨
    ∃ c n, t = s.raise c (some (encodeWord i)) n

theorem withAccess_ends {α : Type} (i : Instr) (s : State) (r : Except Nat α) (finish : α → State)
    (h : ∀ a, (finish a).fault = s.fault ∧ (finish a).out = s.out ∧ SameInputs s (finish a)) :
    ∃ t, withAccess i s r finish = .next t ∧ Ends i s t := by
  rcases withAccess_cases i s r finish with ⟨a, _, hw⟩ | ⟨e, _, hw⟩
  · exact ⟨_, hw, .inl (h a)⟩
  · exact ⟨_, hw, .inr (.inr ⟨_, _, rfl⟩)⟩

theorem keySkip_ends (i : Instr) (x : Reg) (f : Bool → Bool) (s : State) :
    ∃ t, keySkip i x f s = .next t ∧ Ends i s t := by
  rcases keySkip_cases i x f s with ⟨_, h⟩ | ⟨_, h⟩
  · exact ⟨_, h, .inl ⟨rfl, rfl, rfl, rfl, rfl, rfl⟩⟩
  · exact ⟨_, h, .inr (.inr ⟨_, _, rfl⟩)⟩

/-- All that RET can do (R111, R226). -/
theorem execRet_cases (s : State) :
    (s.depth.val = 0 ∧ execRet s = .next (s.raise .stackUnderflow (some (encodeWord .ret)) none)) ∨
    ∃ h : 0 < s.depth.val, execRet s = .next { s with
      depth := ⟨s.depth.val - 1, by omega⟩, pc := s.stack[s.depth.val - 1]'(by omega) + 2#16 } := by
  rcases State.pop_cases s with ⟨h0, h⟩ | ⟨h0, h⟩
  · exact .inl ⟨h0, by simp only [execRet, h, raiseBy]⟩
  · exact .inr ⟨h0, by simp only [execRet, h, State.jumpTo]⟩

/-- All that CALL can do (R113, R225). -/
theorem execCall_cases (nnn : Addr12) (s : State) :
    (s.depth.val = 16 ∧ execCall nnn s = .next (s.raise .stackOverflow (some (encodeWord (.call nnn))) none)) ∨
    ∃ h : s.depth.val < 16, execCall nnn s = .next { s with
      stack := s.stack.set s.depth.val s.pc, depth := ⟨s.depth.val + 1, by omega⟩, pc := immAddr nnn } := by
  rcases State.push_cases s s.pc with ⟨h0, h⟩ | ⟨h0, h⟩
  · exact .inl ⟨h0, by simp only [execCall, h, raiseBy]⟩
  · exact .inr ⟨h0, by simp only [execCall, h, State.jumpTo]⟩

/-- Every instruction answers a next state and ends in one of the three ways. -/
theorem exec_cases (i : Instr) (s : State) : ∃ t, exec i s = .next t ∧ Ends i s t := by
  cases i with
  | ret =>
    rcases execRet_cases s with ⟨_, h⟩ | ⟨_, h⟩
    · exact ⟨_, h, .inr (.inr ⟨_, _, rfl⟩)⟩
    · exact ⟨_, h, .inl ⟨rfl, rfl, rfl, rfl, rfl, rfl⟩⟩
  | call nnn =>
    rcases execCall_cases nnn s with ⟨_, h⟩ | ⟨_, h⟩
    · exact ⟨_, h, .inr (.inr ⟨_, _, rfl⟩)⟩
    · exact ⟨_, h, .inl ⟨rfl, rfl, rfl, rfl, rfl, rfl⟩⟩
  | skp x => exact keySkip_ends (.skp x) x (fun pressed => pressed) s
  | sknp x => exact keySkip_ends (.sknp x) x (fun pressed => !pressed) s
  | ldVxK x =>
    rcases execLdVxK_cases x s with ⟨_, h⟩ | ⟨_, _, h⟩ | ⟨_, _, _, _, h⟩
    · exact ⟨_, h, .inr (.inl rfl)⟩
    · exact ⟨_, h, .inl ⟨rfl, rfl, rfl, rfl, rfl, rfl⟩⟩
    · exact ⟨_, h, .inl ⟨rfl, rfl, rfl, rfl, rfl, rfl⟩⟩
  | ldB x => exact withAccess_ends (.ldB x) s _ _ fun _ => ⟨rfl, rfl, rfl, rfl, rfl, rfl⟩
  | ldMemVx x => exact withAccess_ends (.ldMemVx x) s _ _ fun _ => ⟨rfl, rfl, rfl, rfl, rfl, rfl⟩
  | ldVxMem x => exact withAccess_ends (.ldVxMem x) s _ _ fun _ => ⟨rfl, rfl, rfl, rfl, rfl, rfl⟩
  | drw x y n => exact withAccess_ends (.drw x y n) s _ _ fun _ => ⟨rfl, rfl, rfl, rfl, rfl, rfl⟩
  | _ => exact ⟨_, rfl, .inl ⟨rfl, rfl, rfl, rfl, rfl, rfl⟩⟩

/-- No instruction changes what the other agents own (R28, R34, R105). -/
theorem exec_inputs {i : Instr} {s t : State} (hx : exec i s = .next t) : SameInputs s t := by
  obtain ⟨_, h, hc⟩ := exec_cases i s
  cases h.symm.trans hx
  rcases hc with ⟨_, _, h⟩ | rfl | ⟨_, _, rfl⟩
  · exact h
  · exact ⟨rfl, rfl, rfl, rfl⟩
  · exact ⟨rfl, rfl, rfl, rfl⟩

end Sys2Proof.Machine
end

