-- ==== Sys2Proof/Laws/PerInstr.lean ====
section
/-! SUPPORT. Statements about every instruction as syntax, one lemma per constructor. The family digit: the top nibble of an
instruction's word is the digit its row of the opcode map begins with (R72, R75). -/

namespace Sys2Proof.Laws.FamilyDigit

/-- The first digit of the instruction's pattern (R75). -/
def digit : Instr → Nat
  | .sys _ => 0x0
  | .cls => 0x0
  | .ret => 0x0
  | .jp _ => 0x1
  | .call _ => 0x2
  | .seImm _ _ => 0x3
  | .sneImm _ _ => 0x4
  | .seReg _ _ => 0x5
  | .ldImm _ _ => 0x6
  | .addImm _ _ => 0x7
  | .ldReg _ _ => 0x8
  | .or _ _ => 0x8
  | .and _ _ => 0x8
  | .xor _ _ => 0x8
  | .addReg _ _ => 0x8
  | .sub _ _ => 0x8
  | .shr _ _ => 0x8
  | .subn _ _ => 0x8
  | .shl _ _ => 0x8
  | .sneReg _ _ => 0x9
  | .ldI _ => 0xA
  | .jpV0 _ => 0xB
  | .rnd _ _ => 0xC
  | .drw _ _ _ => 0xD
  | .skp _ => 0xE
  | .sknp _ => 0xE
  | .ldVxDt _ => 0xF
  | .ldVxK _ => 0xF
  | .ldDtVx _ => 0xF
  | .ldStVx _ => 0xF
  | .addI _ => 0xF
  | .ldF _ => 0xF
  | .ldB _ => 0xF
  | .ldMemVx _ => 0xF
  | .ldVxMem _ => 0xF

/-- The top nibble of the encoded word is the family digit. -/
def Statement (i : Instr) : Prop := bits (encodeWord i) 15 12 = digit i

theorem sys (nnn : Addr12) : Statement (.sys nnn) := formatA_family nnn (by decide)
theorem cls : Statement .cls := rfl
theorem ret : Statement .ret := rfl
theorem jp (nnn : Addr12) : Statement (.jp nnn) := formatA_family nnn (by decide)
theorem call (nnn : Addr12) : Statement (.call nnn) := formatA_family nnn (by decide)
theorem seImm (x : Reg) (kk : Byte) : Statement (.seImm x kk) := formatXK_family x kk (by decide)
theorem sneImm (x : Reg) (kk : Byte) : Statement (.sneImm x kk) := formatXK_family x kk (by decide)
theorem seReg (x y : Reg) : Statement (.seReg x y) := formatXY_family x y (by decide) (by decide)
theorem ldImm (x : Reg) (kk : Byte) : Statement (.ldImm x kk) := formatXK_family x kk (by decide)
theorem addImm (x : Reg) (kk : Byte) : Statement (.addImm x kk) := formatXK_family x kk (by decide)
theorem ldReg (x y : Reg) : Statement (.ldReg x y) := formatXY_family x y (by decide) (by decide)
theorem or (x y : Reg) : Statement (.or x y) := formatXY_family x y (by decide) (by decide)
theorem and (x y : Reg) : Statement (.and x y) := formatXY_family x y (by decide) (by decide)
theorem xor (x y : Reg) : Statement (.xor x y) := formatXY_family x y (by decide) (by decide)
theorem addReg (x y : Reg) : Statement (.addReg x y) := formatXY_family x y (by decide) (by decide)
theorem sub (x y : Reg) : Statement (.sub x y) := formatXY_family x y (by decide) (by decide)
theorem shr (x y : Reg) : Statement (.shr x y) := formatXY_family x y (by decide) (by decide)
theorem subn (x y : Reg) : Statement (.subn x y) := formatXY_family x y (by decide) (by decide)
theorem shl (x y : Reg) : Statement (.shl x y) := formatXY_family x y (by decide) (by decide)
theorem sneReg (x y : Reg) : Statement (.sneReg x y) := formatXY_family x y (by decide) (by decide)
theorem ldI (nnn : Addr12) : Statement (.ldI nnn) := formatA_family nnn (by decide)
theorem jpV0 (nnn : Addr12) : Statement (.jpV0 nnn) := formatA_family nnn (by decide)
theorem rnd (x : Reg) (kk : Byte) : Statement (.rnd x kk) := formatXK_family x kk (by decide)
theorem drw (x y : Reg) (n : Nibble) : Statement (.drw x y n) := formatXY_family x y (by decide) n.isLt
theorem skp (x : Reg) : Statement (.skp x) := formatX_family x (by decide) (by decide)
theorem sknp (x : Reg) : Statement (.sknp x) := formatX_family x (by decide) (by decide)
theorem ldVxDt (x : Reg) : Statement (.ldVxDt x) := formatX_family x (by decide) (by decide)
theorem ldVxK (x : Reg) : Statement (.ldVxK x) := formatX_family x (by decide) (by decide)
theorem ldDtVx (x : Reg) : Statement (.ldDtVx x) := formatX_family x (by decide) (by decide)
theorem ldStVx (x : Reg) : Statement (.ldStVx x) := formatX_family x (by decide) (by decide)
theorem addI (x : Reg) : Statement (.addI x) := formatX_family x (by decide) (by decide)
theorem ldF (x : Reg) : Statement (.ldF x) := formatX_family x (by decide) (by decide)
theorem ldB (x : Reg) : Statement (.ldB x) := formatX_family x (by decide) (by decide)
theorem ldMemVx (x : Reg) : Statement (.ldMemVx x) := formatX_family x (by decide) (by decide)
theorem ldVxMem (x : Reg) : Statement (.ldVxMem x) := formatX_family x (by decide) (by decide)

end Sys2Proof.Laws.FamilyDigit
end

