-- ==== Sys2Proof/Tests/Slice0.lean ====
section
/-! SUPPORT. Tests. Each expected value is a worked example of the rule it names, or is computed by hand from that rule's pseudocode;
the last part shows, for every obligation with hypotheses, concrete values that meet them. -/

namespace Sys2Proof.Tests

open Sys2Proof Sys2Proof.Machine

/-! ### Well-formedness: the one check refuses what CLS and RET own (R76) -/

theorem test_sys_00E0_is_ill_formed : (Instr.sys 0x0E0#12).wellFormed = false := by decide

theorem test_sys_00EE_is_ill_formed : (Instr.sys 0x0EE#12).wellFormed = false := by decide

theorem test_sys_others_are_well_formed :
    (Instr.sys 0x000#12).wellFormed = true ∧ (Instr.sys 0x0E1#12).wellFormed = true ∧
    (Instr.sys 0xFFF#12).wellFormed = true := by decide

/-! ### Decoding: every row of the opcode map, its word written out from the row's pattern (R75) -/

/-- The word decodes to the instruction. -/
def reads (w : Word) (i : Instr) : Bool :=
  match decodeWord w with
  | .ok j => j == i
  | .error _ => false

/-- The word has no tag. -/
def illegal (w : Word) : Bool :=
  match decodeWord w with
  | .ok _ => false
  | .error e => e == .noMatch

theorem test_decode_family0 :
    reads 0b0000000011100000#16 .cls ∧ reads 0b0000000011101110#16 .ret ∧
    reads 0b0000000011100001#16 (.sys 0x0E1#12) ∧ reads 0b0000000000000000#16 (.sys 0#12) := by decide

theorem test_decode_jumps :
    reads 0b0001101010111100#16 (.jp 0xABC#12) ∧ reads 0b0010001100000000#16 (.call 0x300#12) ∧
    reads 0b1011001100000001#16 (.jpV0 0x301#12) := by decide

theorem test_decode_skips :
    reads 0b0011101001000010#16 (.seImm 10 0x42#8) ∧ reads 0b0100101001000010#16 (.sneImm 10 0x42#8) ∧
    reads 0b0101000100100000#16 (.seReg 1 2) ∧ reads 0b1001000100100000#16 (.sneReg 1 2) := by decide

theorem test_decode_immediates :
    reads 0b0110000000001010#16 (.ldImm 0 0x0A#8) ∧ reads 0b0111111111111110#16 (.addImm 15 0xFE#8) ∧
    reads 0b1010001011110000#16 (.ldI 0x2F0#12) ∧ reads 0b1100001100001111#16 (.rnd 3 0x0F#8) := by decide

theorem test_decode_family8 :
    reads 0b1000000100100000#16 (.ldReg 1 2) ∧ reads 0b1000000100100001#16 (.or 1 2) ∧
    reads 0b1000000100100010#16 (.and 1 2) ∧ reads 0b1000000100100011#16 (.xor 1 2) ∧
    reads 0b1000000100100100#16 (.addReg 1 2) ∧ reads 0b1000000100100101#16 (.sub 1 2) ∧
    reads 0b1000000100100110#16 (.shr 1 2) ∧ reads 0b1000000100100111#16 (.subn 1 2) ∧
    reads 0b1000000100101110#16 (.shl 1 2) := by decide

theorem test_decode_draw_and_keys :
    reads 0b1101000100101111#16 (.drw 1 2 15#4) ∧ reads 0b1110001110011110#16 (.skp 3) ∧
    reads 0b1110001110100001#16 (.sknp 3) := by decide

theorem test_decode_familyF :
    reads 0b1111010000000111#16 (.ldVxDt 4) ∧ reads 0b1111010100001010#16 (.ldVxK 5) ∧
    reads 0b1111010000010101#16 (.ldDtVx 4) ∧ reads 0b1111010000011000#16 (.ldStVx 4) ∧
    reads 0b1111001000011110#16 (.addI 2) ∧ reads 0b1111000000101001#16 (.ldF 0) ∧
    reads 0b1111000000110011#16 (.ldB 0) ∧ reads 0b1111001001010101#16 (.ldMemVx 2) ∧
    reads 0b1111001001100101#16 (.ldVxMem 2) := by decide

/-- R79 at the edges of its three cases; 0xF075 and 0xF085 are instructions of other CHIP-8 machines only. -/
theorem test_illegal_words :
    illegal 0x8008#16 ∧ illegal 0x812D#16 ∧ illegal 0x812F#16 ∧ illegal 0xE09F#16 ∧ illegal 0xEFA0#16 ∧
    illegal 0xF000#16 ∧ illegal 0xF075#16 ∧ illegal 0xFF85#16 := by decide

/-- R80(b): the low nibble of families 5 and 9 is ignored. -/
theorem test_low_nibble_ignored :
    reads 0x5121#16 (.seReg 1 2) ∧ reads 0x912F#16 (.sneReg 1 2) ∧
    encode (.seReg 1 2) = [0x51#8, 0x20#8] := by decide

/-- R71, R52: the host's two entry points read the word as the opcode table numbers its bits. -/
theorem test_table_word :
    decodeTableWord 16 0xD125 = some (.drw 1 2 5#4) ∧ decodeTableWord 16 0xF0FF = none ∧
    (fetch (State.reset.withFetchWord 16 0xD125).mem 0x200#16).toOption = some 0xD125#16 := by decide

/-! ### One step of each instruction -/

/-- A machine about to run the word `w` at 0x200, as it is after reset otherwise. -/
def ready (w : Nat) : State := State.reset.withFetchWord 16 w

/-- The step goes on, to a state with the property. -/
def goes (s : State) (p : State → Bool) : Bool :=
  match step s with
  | .next t => p t
  | .fault _ => false
  | .refused _ => false

/-- The step latches the record and leaves PC at 0x200. -/
def raises (s : State) (c : Cause) (w : Option Word) (info : Option Nat) : Bool :=
  goes s fun t => t.fault == some ⟨c, w, 0x200#16, info⟩ && t.out == .fault ⟨c, w, 0x200#16, info⟩ && t.pc == 0x200#16

/-- A register and the flag register set beforehand. -/
def withRegs (s : State) (x : Reg) (a : Byte) (y : Reg) (b : Byte) : State := (s.setReg x a).setReg y b

/-- A machine whose stack is full. -/
def full (s : State) : State := { s with depth := 16 }

/-- Memory holding bytes from an address up. -/
def withBytes (s : State) (a : Nat) (bs : List Byte) : State := { s with mem := s.mem.pokes a bs }

theorem test_sys : goes (ready 0x0123) (fun t => t.pc == 0x202#16 && t.depth == 0 && t.fault == none) := by decide
theorem test_jp : goes (ready 0x1ABC) (fun t => t.pc == 0xABC#16) := by decide
theorem test_call : goes (ready 0x2300) (fun t => t.pc == 0x300#16 && t.depth == 1 && t.stack[0] == 0x200#16) := by decide
theorem test_call_full : raises (full (ready 0x2300)) .stackOverflow (some 0x2300#16) none := by decide
theorem test_ret : goes { ready 0x00EE with depth := 1, stack := (ready 0).stack.set 0 0x300#16 }
    (fun t => t.pc == 0x302#16 && t.depth == 0 && t.stack[0] == 0x300#16) := by decide
theorem test_ret_empty : raises (ready 0x00EE) .stackUnderflow (some 0x00EE#16) none := by decide
theorem test_se_imm : goes ((ready 0x3A42).setReg 10 0x42#8) (fun t => t.pc == 0x204#16) ∧
    goes ((ready 0x3A42).setReg 10 0x41#8) (fun t => t.pc == 0x202#16) := by decide
theorem test_sne_imm : goes ((ready 0x4A42).setReg 10 0x42#8) (fun t => t.pc == 0x202#16) ∧
    goes (ready 0x4A42) (fun t => t.pc == 0x204#16) := by decide
theorem test_se_reg : goes (withRegs (ready 0x5120) 1 7#8 2 7#8) (fun t => t.pc == 0x204#16) ∧
    goes (withRegs (ready 0x5120) 1 7#8 2 8#8) (fun t => t.pc == 0x202#16) := by decide
theorem test_sne_reg : goes (withRegs (ready 0x9120) 1 7#8 2 7#8) (fun t => t.pc == 0x202#16) ∧
    goes (withRegs (ready 0x9120) 1 7#8 2 8#8) (fun t => t.pc == 0x204#16) := by decide
theorem test_jp_v0 : goes ((ready 0xB300).setReg 0 0x04#8) (fun t => t.pc == 0x304#16) ∧
    goes ((ready 0xBFFF).setReg 0 0xFF#8) (fun t => t.pc == 0x10FE#16) := by decide

theorem test_ld_imm : goes (ready 0x600A) (fun t => t.reg 0 == 0x0A#8 && t.pc == 0x202#16) := by decide
theorem test_add_imm : goes (withRegs (ready 0x7002) 0 0xFF#8 15 0x55#8)
    (fun t => t.reg 0 == 0x01#8 && t.reg 15 == 0x55#8) := by decide
theorem test_ld_reg : goes ((ready 0x8120).setReg 2 0x37#8) (fun t => t.reg 1 == 0x37#8 && t.reg 2 == 0x37#8) := by decide
theorem test_or : goes (withRegs (ready 0x8121) 1 0xF0#8 2 0x0F#8) (fun t => t.reg 1 == 0xFF#8) := by decide
theorem test_and : goes (withRegs (ready 0x8122) 1 0xF6#8 2 0x3C#8) (fun t => t.reg 1 == 0x34#8) := by decide
theorem test_xor : goes (withRegs (ready 0x8123) 1 0xF6#8 2 0x3C#8) (fun t => t.reg 1 == 0xCA#8) := by decide
theorem test_add_reg : goes (withRegs (ready 0x8124) 1 0xFF#8 2 0x01#8) (fun t => t.reg 1 == 0x00#8 && t.reg 15 == 1#8) := by decide
theorem test_add_reg_into_vf : goes (withRegs (ready 0x8F14) 15 0xF0#8 1 0x20#8) (fun t => t.reg 15 == 1#8) := by decide
theorem test_sub : goes (withRegs (ready 0x8125) 1 10#8 2 3#8) (fun t => t.reg 1 == 7#8 && t.reg 15 == 1#8) := by decide
theorem test_sub_borrow : goes (withRegs (ready 0x8125) 1 3#8 2 10#8) (fun t => t.reg 1 == 7#8 && t.reg 15 == 0#8) := by decide
theorem test_subn : goes (withRegs (ready 0x8127) 1 3#8 2 10#8) (fun t => t.reg 1 == 7#8 && t.reg 15 == 1#8) := by decide
theorem test_subn_borrow : goes (withRegs (ready 0x8127) 1 10#8 2 3#8) (fun t => t.reg 1 == 7#8 && t.reg 15 == 0#8) := by decide
theorem test_shr : goes (withRegs (ready 0x8126) 1 0x05#8 2 0x80#8)
    (fun t => t.reg 1 == 0x02#8 && t.reg 15 == 1#8 && t.reg 2 == 0x80#8) := by decide
theorem test_shr_of_vf : goes ((ready 0x8F06).setReg 15 0xFE#8) (fun t => t.reg 15 == 0#8) := by decide
theorem test_shl : goes ((ready 0x810E).setReg 1 0x81#8) (fun t => t.reg 1 == 0x02#8 && t.reg 15 == 1#8) := by decide
theorem test_shl_no_carry : goes ((ready 0x810E).setReg 1 0x40#8) (fun t => t.reg 1 == 0x80#8 && t.reg 15 == 0#8) := by decide
theorem test_rnd : (rndWith 0xA7#8 3 0x0F#8 (ready 0xC30F)).reg 3 = 0x07#8 := by decide

theorem test_ld_i : goes (ready 0xA2F0) (fun t => t.i == 0x02F0#16) := by decide
theorem test_add_i : goes ({ ready 0xF21E with i := 0x0FFF#16 }.setReg 2 0x01#8)
    (fun t => t.i == 0x1000#16 && t.reg 15 == 0#8) ∧
    goes ({ ready 0xF21E with i := 0xFFFF#16 }.setReg 2 0x01#8) (fun t => t.i == 0x0000#16) := by decide
theorem test_ld_f : goes ((ready 0xF029).setReg 0 0x0A#8) (fun t => t.i == 0x0032#16) ∧
    goes ((ready 0xF029).setReg 0 0xFF#8) (fun t => t.i == 0x04FB#16) := by decide
theorem test_ld_b : goes ({ ready 0xF033 with i := 0x300#16 }.setReg 0 234#8)
    (fun t => t.mem.peek 0x300 == 2#8 && t.mem.peek 0x301 == 3#8 && t.mem.peek 0x302 == 4#8 && t.i == 0x300#16) := by decide
theorem test_ld_b_beyond : raises { ready 0xF033 with i := 0xFFE#16 } .addressFault (some 0xF033#16) (some 0x1000) := by decide
theorem test_store_regs : goes ({ withRegs (ready 0xF255) 0 0x11#8 1 0x22#8 with i := 0x400#16 }.setReg 2 0x33#8)
    (fun t => t.mem.peek 0x400 == 0x11#8 && t.mem.peek 0x401 == 0x22#8 && t.mem.peek 0x402 == 0x33#8 && t.i == 0x400#16) := by decide
theorem test_store_regs_beyond :
    raises { ready 0xF155 with i := 0x1234#16 } .addressFault (some 0xF155#16) (some 0x1234) := by decide
theorem test_load_regs : goes { withBytes (ready 0xF265) 0x300 [2, 3, 4, 5] with i := 0x300#16 }
    (fun t => t.reg 0 == 2#8 && t.reg 1 == 3#8 && t.reg 2 == 4#8 && t.reg 3 == 0#8 && t.i == 0x300#16) := by decide
theorem test_load_regs_beyond :
    raises { ready 0xF165 with i := 0xFFF#16 } .addressFault (some 0xF165#16) (some 0x1000) := by decide

/-- The pixels of row 0 that are set, left to right. -/
def lit (t : State) : List Nat := (List.range 64).filter fun c => t.fb.pixel 0 (Fin.ofNat 64 c)

theorem test_cls : goes { ready 0x00E0 with fb := Grid.clear.setPixel 3 4 true }
    (fun t => !t.fb.pixel 3 4 && t.pc == 0x202#16) := by decide
theorem test_drw_wraps : goes { withBytes ((ready 0xD011).setReg 0 60#8) 0x300 [0xFF] with i := 0x300#16 }
    (fun t => lit t == [0, 1, 2, 3, 60, 61, 62, 63] && t.reg 15 == 0#8) := by decide
theorem test_drw_collides :
    goes { withBytes (ready 0xD011) 0x300 [0x81] with i := 0x300#16, fb := Grid.clear.setPixel 0 7 true }
    (fun t => lit t == [0] && t.reg 15 == 1#8) := by decide

theorem test_skp : goes { (ready 0xE39E).setReg 3 5#8 with keys := (ready 0).keys.set 5 true } (fun t => t.pc == 0x204#16) ∧
    goes ((ready 0xE39E).setReg 3 5#8) (fun t => t.pc == 0x202#16) := by decide
theorem test_skp_no_such_key :
    raises ((ready 0xE39E).setReg 3 0x10#8) .keyIndexFault (some 0xE39E#16) (some 0x10) := by decide
theorem test_sknp : goes ((ready 0xE3A1).setReg 3 5#8) (fun t => t.pc == 0x204#16) ∧
    goes { (ready 0xE3A1).setReg 3 5#8 with keys := (ready 0).keys.set 5 true } (fun t => t.pc == 0x202#16) := by decide
theorem test_ld_dt : goes { ready 0xF407 with dt := 0x2A#8 } (fun t => t.reg 4 == 0x2A#8 && t.dt == 0x2A#8) := by decide
theorem test_set_dt : goes ((ready 0xF415).setReg 4 0x3C#8) (fun t => t.dt == 0x3C#8 && t.st == 0#8) := by decide
theorem test_set_st : goes ((ready 0xF418).setReg 4 0x01#8) (fun t => t.st == 0x01#8 && t.out == .next) := by decide
theorem test_key_found : goes { ready 0xF50A with keys := (ready 0).keys.set 7 true }
    (fun t => t.reg 5 == 7#8 && t.pc == 0x202#16) := by decide
theorem test_key_wait : goes (ready 0xF50A) (fun t => t.out == .wait && t.pc == 0x200#16 && t.fault == none) := by decide

theorem test_decode_fault : raises (ready 0xF0FF) .decodeFault (some 0xF0FF#16) (some 0xF0FF) := by decide
/-- R118's example at the bound: the step after a jump to 0x10FE faults in its fetch. -/
theorem test_fetch_fault : goes { State.reset with pc := 0x10FE#16 }
    (fun t => t.fault == some ⟨.addressFault, none, 0x10FE#16, some 0x10FE⟩) := by decide

/-! ### The other agents -/

/-- A machine with one request. -/
def asked (r : Request) : State := { State.reset with requests := [r] }

/-- R236's check: the pulse comes at the tick that takes ST from 1 to 0. -/
theorem test_tick : goes { asked .tick with st := 1#8, dt := 5#8 }
    (fun t => t.st == 0#8 && t.dt == 4#8 && t.out == .tonePulse && t.requests == []) ∧
    goes (asked .tick) (fun t => t.st == 0#8 && t.dt == 0#8 && t.out == .silent) := by decide
theorem test_set_key : goes (asked (.setKey 5 true)) (fun t => t.keys == State.reset.keys.set 5 true) := by decide
/-- R264's check: the image `[0x60,0x0A, 0x61,0x05, 0x80,0x14]` puts 0x60 at 0x200 and 0x14 at 0x205. -/
theorem test_load : goes (asked (.load [0x60, 0x0A, 0x61, 0x05, 0x80, 0x14]))
    (fun t => t.mem.peek 0x200 == 0x60#8 && t.mem.peek 0x205 == 0x14#8 && t.pc == 0x200#16) := by decide
theorem test_snapshot : goes { asked .snapshot with fb := Grid.clear.setPixel 31 63 true }
    (fun t => match t.out with | .snapshot g => g.pixel 31 63 && !g.pixel 31 62 | _ => false) := by decide
/-- R262: glyph 0 begins F0 90, glyph F ends F0 80 80; the byte above the font is not part of it. -/
theorem test_font : Memory.peek [] 0 = 0xF0#8 ∧ Memory.peek [] 1 = 0x90#8 ∧ Memory.peek [] 78 = 0x80#8 ∧
    Memory.peek [] 75 = 0xF0#8 ∧ Memory.peek [] 80 = 0x00#8 := by decide
/-- A reset at the spec's simulator defaults is the state after reset. -/
theorem test_default_reset : resetWith ResetParams.default = State.reset := by decide

/-! ### Witnesses: values that meet the hypotheses of each obligation, at the ends of each clause's range -/

theorem test_witness_DecodingAnEncodedInstruction :
    (Instr.sys 0xFFF#12).wellFormed = true ∧ (Instr.drw 15 15 15#4).wellFormed = true := by decide

theorem test_witness_EncodingADecodedWord :
    (decodeWord 0x512F#16 = .ok (.seReg 1 2) ∧ bits 0x512F#16 15 12 = 0x5) ∧
    (decodeWord 0x912F#16 = .ok (.sneReg 1 2) ∧ bits 0x912F#16 15 12 = 0x9) ∧
    (decodeWord 0xFF65#16 = .ok (.ldVxMem 15) ∧ ¬ (bits 0xFF65#16 15 12 = 0x5 ∨ bits 0xFF65#16 15 12 = 0x9)) :=
  ⟨⟨rfl, rfl⟩, ⟨rfl, rfl⟩, rfl, by decide⟩

/-- A word, at its last value or with every operand bit set, for each of the 35 rows. -/
theorem test_witness_EveryOpcodeRow :
    (0x0FFF#16 &&& 0xF000#16 = 0x0000#16 ∧ 0x0FFF#16 ≠ 0x00E0#16 ∧ 0x0FFF#16 ≠ 0x00EE#16) ∧
    0x00E0#16 &&& 0xFFFF#16 = 0x00E0#16 ∧ 0x00EE#16 &&& 0xFFFF#16 = 0x00EE#16 ∧ 0x1FFF#16 &&& 0xF000#16 = 0x1000#16 ∧
    0x2FFF#16 &&& 0xF000#16 = 0x2000#16 ∧ 0x3FFF#16 &&& 0xF000#16 = 0x3000#16 ∧ 0x4FFF#16 &&& 0xF000#16 = 0x4000#16 ∧
    0x5FFF#16 &&& 0xF000#16 = 0x5000#16 ∧ 0x6FFF#16 &&& 0xF000#16 = 0x6000#16 ∧ 0x7FFF#16 &&& 0xF000#16 = 0x7000#16 ∧
    0x8FF0#16 &&& 0xF00F#16 = 0x8000#16 ∧ 0x8FF1#16 &&& 0xF00F#16 = 0x8001#16 ∧ 0x8FF2#16 &&& 0xF00F#16 = 0x8002#16 ∧
    0x8FF3#16 &&& 0xF00F#16 = 0x8003#16 ∧ 0x8FF4#16 &&& 0xF00F#16 = 0x8004#16 ∧ 0x8FF5#16 &&& 0xF00F#16 = 0x8005#16 ∧
    0x8FF6#16 &&& 0xF00F#16 = 0x8006#16 ∧ 0x8FF7#16 &&& 0xF00F#16 = 0x8007#16 ∧ 0x8FFE#16 &&& 0xF00F#16 = 0x800E#16 ∧
    0x9FFF#16 &&& 0xF000#16 = 0x9000#16 ∧ 0xAFFF#16 &&& 0xF000#16 = 0xA000#16 ∧ 0xBFFF#16 &&& 0xF000#16 = 0xB000#16 ∧
    0xCFFF#16 &&& 0xF000#16 = 0xC000#16 ∧ 0xDFFF#16 &&& 0xF000#16 = 0xD000#16 ∧ 0xEF9E#16 &&& 0xF0FF#16 = 0xE09E#16 ∧
    0xEFA1#16 &&& 0xF0FF#16 = 0xE0A1#16 ∧ 0xFF07#16 &&& 0xF0FF#16 = 0xF007#16 ∧ 0xFF0A#16 &&& 0xF0FF#16 = 0xF00A#16 ∧
    0xFF15#16 &&& 0xF0FF#16 = 0xF015#16 ∧ 0xFF18#16 &&& 0xF0FF#16 = 0xF018#16 ∧ 0xFF1E#16 &&& 0xF0FF#16 = 0xF01E#16 ∧
    0xFF29#16 &&& 0xF0FF#16 = 0xF029#16 ∧ 0xFF33#16 &&& 0xF0FF#16 = 0xF033#16 ∧ 0xFF55#16 &&& 0xF0FF#16 = 0xF055#16 ∧
    0xFF65#16 &&& 0xF0FF#16 = 0xF065#16 := by decide

theorem test_witness_IgnoredBits :
    (bits 0x5120#16 15 12 = 0x5 ∧ bits 0x512F#16 15 4 = bits 0x5120#16 15 4) ∧
    (bits 0x9120#16 15 12 = 0x9 ∧ bits 0x912F#16 15 4 = bits 0x9120#16 15 4) := by decide

theorem test_witness_Fetch :
    (0xFFE#16 : Word).toNat ≤ 0xFFE ∧ (0xFFF#16 : Word).toNat = 0xFFF ∧ 0xFFF < (0x1000#16 : Word).toNat := by decide

/-- The last address a word can be fetched from, with DRW V1, V2, 5 there. -/
def atTop : State := { withBytes State.reset 0xFFE [0xD1, 0x25] with pc := 0xFFE#16 }

/-- The engine's own Step, and a listed one. -/
theorem test_witness_StepRunsTheFetchedInstruction :
    (atTop.running ∧ atTop.pc.toNat ≤ 0xFFE ∧
      decode (atTop.mem.peek atTop.pc.toNat :: atTop.mem.peek (atTop.pc.toNat + 1) :: []) = .ok (.drw 1 2 5#4, [])) ∧
    atTop.stepsNext ∧ ({ atTop with requests := [.step, .tick] } : State).stepsNext :=
  ⟨⟨rfl, by decide, rfl⟩, rfl, rfl⟩

/-- A machine at 0xFFF, where no word can be fetched, with these requests. -/
def pastTop (rs : List Request) : State := { State.reset with pc := 0xFFF#16, requests := rs }

theorem test_witness_FetchBeyondMemory :
    (pastTop []).running ∧ (pastTop []).stepsNext ∧ (pastTop [.step, .tick]).stepsNext ∧ 0xFFE < (pastTop []).pc.toNat :=
  ⟨rfl, rfl, rfl, by decide⟩

/-- The same fault from the engine's own Step and from a listed one, after which the Tick is still listed. -/
theorem test_listed_step_faults :
    goes (pastTop []) (fun t => t.fault == some ⟨.addressFault, none, 0xFFF#16, some 0x1000⟩) ∧
    goes (pastTop [.step, .tick])
      (fun t => t.fault == some ⟨.addressFault, none, 0xFFF#16, some 0x1000⟩ && t.requests == [.tick]) := by decide

theorem test_witness_IllegalWord :
    (ready 0x8008).running ∧ (ready 0x8008).stepsNext ∧ (ready 0x8008).pc.toNat ≤ 0xFFE ∧
    decodeWord (ready 0x8008).nextWord = .error .noMatch ∧ ({ ready 0x8008 with requests := [.step, .step] } : State).stepsNext :=
  ⟨rfl, rfl, by decide, rfl, rfl⟩

/-- A machine that RET at address 0x200 has stopped. -/
def stopped (rs : List Request) : State :=
  { (State.reset.latch ⟨.stackUnderflow, some 0x00EE#16, 0x200#16, none⟩) with requests := rs }

theorem test_witness_FaultedMachine :
    (stopped []).fault = some ⟨.stackUnderflow, some 0x00EE#16, 0x200#16, none⟩ ∧ (stopped []).stepsNext ∧
    (stopped [.step]).fault = some ⟨.stackUnderflow, some 0x00EE#16, 0x200#16, none⟩ ∧ (stopped [.step]).stepsNext :=
  ⟨rfl, rfl, rfl, rfl⟩

/-- The latch kept by a Tick, cleared by a Reset, set by a Step. -/
theorem test_witness_Latch :
    (∃ t, step (stopped [.tick]) = .next t ∧ ∃ r, (stopped [.tick]).fault = some r) ∧
    (∃ t, step (stopped [.reset ResetParams.default]) = .next t ∧ t.fault = none) ∧
    (∃ t, step (ready 0x00EE) = .next t ∧ (ready 0x00EE).fault = none ∧ ∃ r, t.fault = some r) :=
  ⟨⟨_, rfl, _, rfl⟩, ⟨_, rfl, rfl⟩, ⟨_, rfl, rfl, _, rfl⟩⟩

/-- Each of the three outcomes is reached. -/
theorem test_witness_ThreeOutcomes :
    (ready 0x00E0).running ∧ (ready 0x00E0).stepsNext ∧ goes (ready 0x00E0) (fun t => t.out == .next) ∧
    goes (ready 0xF00A) (fun t => t.out == .wait) ∧ goes (ready 0x00EE) (fun t => t.fault.isSome) :=
  ⟨rfl, rfl, by decide, by decide, by decide⟩

theorem test_witness_FaultsArePrecise :
    (ready 0).running ∧ ∃ t r, exec .ret (ready 0) = .next t ∧ t.fault = some r := ⟨rfl, _, _, rfl, rfl⟩

theorem test_witness_FrameRule :
    (ready 0).running ∧ (∃ t, exec (.ldMemVx 15) (ready 0) = .next t ∧ t.fault = none) ∧
    ∃ t, exec (.ldVxK 0) (ready 0) = .next t ∧ t.fault = none := ⟨rfl, ⟨_, rfl, rfl⟩, _, rfl, rfl⟩

theorem test_witness_Call : (ready 0).sp ≠ 15 ∧ ({ ready 0 with depth := 15 } : State).sp ≠ 15 ∧ (full (ready 0)).sp = 15 := by
  decide

theorem test_witness_Return :
    (((0 : Fin 16).val : Int) = ({ ready 0 with depth := 1 } : State).sp) ∧
    (((15 : Fin 16).val : Int) = (full (ready 0)).sp) ∧ (ready 0).sp = -1 := by decide

theorem test_witness_ReturnResumes :
    ∃ t t' : State, (ready 0).sp ≠ 15 ∧ exec (.call 0x300#12) (ready 0) = .next t ∧ t'.sp = t.sp ∧ t'.stack = t.stack ∧
      t'.pc = 0x345#16 := ⟨_, { (ready 0) with
        depth := 1, stack := (ready 0).stack.set 0 (ready 0).pc, pc := 0x345#16 }, by decide, rfl, rfl, rfl, rfl⟩

/-- ADD, SUB, SUBN, SHR, SHL with a destination that is not VF. -/
theorem test_witness_FlagDestination : (14 : Reg) ≠ regF ∧ (0 : Reg) ≠ regF := by decide

theorem test_witness_FlagWrites :
    Instr.drw 0 0 15#4 ∈ [Instr.addReg 0 0, .sub 0 0, .subn 0 0, .shr 0 0, .shl 0 0, .drw 0 0 15#4] ∧
    (ready 0).running ∧ ∃ t, exec (.drw 0 0 15#4) (ready 0) = .next t ∧ t.fault = none := ⟨by decide, rfl, _, rfl, rfl⟩

theorem test_witness_AccessPrimitives :
    Memory.wf [(0xFFF, 1)] = true ∧ 0xFFF ≤ 0xFFF ∧ 0xFFF < 0x1000 := by decide

theorem test_witness_MemoriesThatReadAlike :
    Memory.wf [(0x300, 1), (0xFFF, 2)] = true ∧
    ∀ a, Memory.peek [(0x300, 1), (0xFFF, 2)] a = Memory.peek (Memory.pokes [] 0xFFF [2] |>.poke 0x300 1) a :=
  ⟨by decide, fun _ => rfl⟩

/-- A machine with the given I. -/
def withI (a : Word) : State := { ready 0 with i := a }

theorem test_witness_Bcd :
    (withI 0xFFD#16).mem.wf = true ∧ (withI 0xFFD#16).i.toNat + 2 ≤ 0xFFF ∧ 0xFFF < (withI 0xFFE#16).i.toNat + 2 := by
  decide

theorem test_witness_BlockTransfers :
    (withI 0xFF0#16).mem.wf = true ∧ (withI 0xFF0#16).i.toNat + (15 : Reg).val ≤ 0xFFF ∧
    0xFFF < (withI 0xFF1#16).i.toNat + (15 : Reg).val ∧ 0xFFF < (withI 0x1000#16).i.toNat + (0 : Reg).val := by decide

theorem test_witness_StoredWordIsFetchedNext :
    (withI 0x202#16).mem.wf = true ∧ 1 ≤ (1 : Reg).val ∧ (withI 0x202#16).i.toNat = (withI 0x202#16).pc.toNat + 2 ∧
    (withI 0x202#16).i.toNat + (1 : Reg).val ≤ 0xFFF := by decide

/-- The longest sprite. -/
def tallSprite : List Byte := List.replicate 15 0x81#8

theorem test_witness_Draw : tallSprite.length ≤ 15 ∧ ∃ b ∈ tallSprite, b ≠ 0 := by decide

theorem test_witness_DrawInstruction :
    (0#4 : Nibble).toNat = 0 ∧ (withI 0xFF1#16).i.toNat + (15#4 : Nibble).toNat - 1 ≤ 0xFFF ∧
    (15#4 : Nibble).toNat ≠ 0 ∧ 0xFFF < (withI 0xFF2#16).i.toNat + (15#4 : Nibble).toNat - 1 := by decide

theorem test_witness_KeySkips :
    (((ready 0).setReg 0 15#8).reg 0).toNat = (15 : Key).val ∧ 15 < (((ready 0).setReg 0 16#8).reg 0).toNat := by decide

theorem test_witness_KeyWait :
    (ready 0xF50A).running ∧ (ready 0xF50A).stepsNext ∧ (ready 0xF50A).pc.toNat ≤ 0xFFE ∧
    decodeWord (ready 0xF50A).nextWord = .ok (.ldVxK 5) ∧ ∀ k : Key, (ready 0xF50A).keys[k.val] = false :=
  ⟨rfl, rfl, by decide, rfl, by decide⟩

/-- Two keys are down, then only one. -/
theorem test_witness_KeyFound :
    (((ready 0).keys.set 0 true).set 15 true)[(15 : Key).val] = true ∧
    ((ready 0).keys.set 15 true)[(15 : Key).val] = true ∧
    ∀ l : Key, ((ready 0).keys.set 15 true)[l.val] = true → l = 15 := by decide

theorem test_witness_Requests :
    (asked .tick).due = .tick ∧ (asked (.setKey 15 true)).due = .setKey 15 true ∧ (asked .snapshot).due = .snapshot ∧
    (stopped [.reset ResetParams.default]).due = .reset ResetParams.default := ⟨rfl, rfl, rfl, rfl⟩

/-- A machine under the free schedule, and a run of two listed requests that goes on. -/
theorem test_witness_FreeOrder :
    ({ State.reset with agenda := .free 7 } : State).requests = [] ∧
    (∃ t, core.run 0 { State.reset with agenda := .free 7 } = .next t) ∧
    ∃ t, core.run 2 { State.reset with requests := [.tick, .setKey 5 true, .step] } = .next t ∧ t.requests = [.step] :=
  ⟨rfl, ⟨_, rfl⟩, _, rfl, rfl⟩

/-- Under the free schedule a step serves the schedule's action at this turn, and moves to the next turn. -/
theorem test_free_schedule :
    step { State.reset with agenda := .free 7 } = serve (Config.schedule 7) { State.reset with agenda := .free 8 } := rfl

theorem test_witness_ToneSignal :
    ∃ t, step { asked .tick with st := 1#8 } = .next t ∧ t.out = .tonePulse := ⟨_, rfl, rfl⟩

/-- The longest image, and each of the three refusals. -/
theorem test_witness_Load :
    ((asked (.load (List.replicate 3584 0))).due = .load (List.replicate 3584 0) ∧
      State.reset.mem.wf = true ∧ (List.replicate 3584 (0 : Byte)).length ≤ 3584 ∧
      (asked (.load [])).fault = none ∧ (asked (.load [])).started = false) ∧
    3584 < (List.replicate 3585 (0 : Byte)).length ∧ (stopped [.load []]).fault ≠ none ∧
    ({ asked (.load []) with started := true } : State).started = true :=
  ⟨⟨rfl, rfl, by rw [List.length_replicate], rfl, rfl⟩, by rw [List.length_replicate]; omega, by decide, rfl⟩

theorem test_witness_ResetMemory : ∃ p : ResetParams, 0 < p.mem.length ∧ p.mem.length ≤ 4016 :=
  ⟨{ ResetParams.default with mem := [1, 2, 3] }, by decide⟩

/-- CLS, DRW and Reset each change the grid. -/
theorem test_witness_GridChanges :
    (∃ t, step { ready 0x00E0 with fb := Grid.clear.setPixel 3 4 true } = .next t ∧ t.fb.pixel 3 4 = false) ∧
    (∃ t, step { withBytes (ready 0xD001) 0x300 [0x80] with i := 0x300#16 } = .next t ∧ t.fb.pixel 0 0 = true) ∧
    ∃ t, step { asked (.reset ResetParams.default) with fb := Grid.clear.setPixel 3 4 true } = .next t ∧
      t.fb.pixel 3 4 = false :=
  ⟨⟨_, rfl, rfl⟩, ⟨_, rfl, rfl⟩, ⟨_, rfl, rfl⟩⟩

/-- SetKey and Reset each change the keys. -/
theorem test_witness_KeyChanges :
    (∃ t, step (asked (.setKey 5 true)) = .next t ∧ t.keys ≠ (asked (.setKey 5 true)).keys) ∧
    ∃ t, step { asked (.reset ResetParams.default) with keys := State.reset.keys.set 5 true } = .next t ∧
      t.keys ≠ State.reset.keys.set 5 true := ⟨⟨_, rfl, by decide⟩, _, rfl, by decide⟩

/-- LD B and LD [I], Vx each change the last byte of their blocks; Load and Reset change memory too. -/
theorem test_witness_MemoryChanges :
    (∃ t, step (asked (.load [7])) = .next t ∧ t.mem.peek 0x200 ≠ (asked (.load [7])).mem.peek 0x200) ∧
    (∃ t, step (withBytes (asked (.reset ResetParams.default)) 0x300 [7]) = .next t ∧ t.mem.peek 0x300 ≠ 7#8) ∧
    (∃ t, (ready 0xF033).stepsNext ∧ step { (ready 0xF033).setReg 0 7#8 with i := 0x300#16 } = .next t ∧
      t.mem.peek 0x302 ≠ (ready 0xF033).mem.peek 0x302) ∧
    ∃ t, (ready 0xF155).stepsNext ∧ step { (ready 0xF155).setReg 1 7#8 with i := 0x300#16 } = .next t ∧
      t.mem.peek 0x301 ≠ (ready 0xF155).mem.peek 0x301 :=
  ⟨⟨_, rfl, by decide⟩, ⟨_, rfl, by decide⟩, ⟨_, rfl, rfl, by decide⟩, _, rfl, rfl, by decide⟩

/-- A Reset of a machine that has stepped lets a Load be served again, and the requests that follow it stay listed (R266). -/
theorem test_boot_order :
    goes { asked (.reset ResetParams.default) with requests := [.reset ResetParams.default, .load [7]], started := true, draws := 3 }
      (fun t => !t.started && t.requests == [.load [7]] && t.draws == 3 && goes t (fun u => u.mem.peek 0x200 == 7#8)) := by
  decide

/-- A state with a live stack slot and a listed byte meets the invariant, and its step goes on. -/
theorem test_witness_Invariant :
    ∃ s t : State, s.Inv ∧ step s = .next t ∧ s.depth = 1 ∧ s.mem ≠ [] := by
  refine ⟨{ ready 0x00EE with depth := 1, stack := (ready 0).stack.set 0 0x300#16 }, _, ⟨by decide, by decide, ?_, ?_, ?_⟩,
    rfl, rfl, by decide⟩
  · decide
  · intro r h; cases h
  · intro r h; cases h

end Sys2Proof.Tests
end

