-- ==== Sys2Proof/Proofs/Scope.lean ====
section
/-! PROOF. The scope statements (00_scope.md): every instruction answers a next state, the three outcomes of a Step, and the order in
which the actions are served. -/

namespace Sys2Proof.Machine

/-! ### The outcomes of a Step -/

/-- Settles O14, from the cases of an instruction. -/
theorem everyInstructionAnswersANextState : Obligations.EveryInstructionAnswersANextState := by
  intro i s
  obtain ⟨t, h, _⟩ := exec_cases i s
  exact ⟨t, h⟩

/-- Raising a fault in a Step latches its record and marks that a Step has been taken (R222; log 16). -/
theorem State.raise_beginStep (s : State) (c : Cause) (opcode : Option Word) (info : Option Nat) :
    s.beginStep.raise c opcode info = ({ s with started := true } : State).latch (s.faultRecord c opcode info) := rfl

/-- The engine's Step on a running machine goes on, waits or faults, whether the fetch, the decoder or the instruction decides it
(R11, R107). -/
theorem engineStep_outcomes {s : State} (hrun : s.running) :
    ∃ t, engineStep s = .next t ∧
      ((t.out = .next ∧ t.fault = none) ∨ t = { s with out := .wait, started := true } ∨
        ∃ r, t = ({ s with started := true } : State).latch r) := by
  rcases engineStep_cases s with ⟨r, hlatch, _⟩ | ⟨_, _, hfetch⟩ | ⟨_, _, w, _, ⟨i, _, hexec⟩ | ⟨e, _, hdecode⟩⟩
  · cases hrun.symm.trans hlatch
  · exact ⟨_, hfetch, .inr (.inr ⟨_, s.raise_beginStep _ _ _⟩)⟩
  · obtain ⟨t, ht, hends⟩ := exec_cases i s.beginStep
    refine ⟨t, hexec.trans ht, ?_⟩
    rcases hends with ⟨hfault, hout, _⟩ | hwait | ⟨c, n, hraise⟩
    · exact .inl ⟨hout, hfault.trans hrun⟩
    · exact .inr (.inl hwait)
    · exact .inr (.inr ⟨_, hraise.trans (s.raise_beginStep _ _ _)⟩)
  · exact ⟨_, hdecode, .inr (.inr ⟨_, s.raise_beginStep _ _ _⟩)⟩

/-- Settles O13: a Step that is due is the engine's Step once it is off the list or the schedule. -/
theorem stepHasOneOfThreeOutcomes : Obligations.StepHasOneOfThreeOutcomes := by
  intro s hrun hdue
  rw [step_due hdue]
  exact engineStep_outcomes (s.taken_fault.trans hrun)

/-! ### The order of the actions -/

/-- A Step leaves the actions still to come as they are (R105; log 4). -/
theorem engineStep_keeps_order {s t : State} (h : engineStep s = .next t) :
    t.requests = s.requests ∧ t.agenda = s.agenda := by
  rcases engineStep_cases s with ⟨_, _, hlatch⟩ | ⟨_, _, hfetch⟩ | ⟨_, _, _, _, ⟨i, _, hexec⟩ | ⟨_, _, hdecode⟩⟩
  · cases hlatch.symm.trans h
  · cases hfetch.symm.trans h
    exact ⟨rfl, rfl⟩
  · obtain ⟨_, hrequests, hagenda, _⟩ := exec_inputs (hexec.symm.trans h)
    exact ⟨hrequests, hagenda⟩
  · cases hdecode.symm.trans h
    exact ⟨rfl, rfl⟩

/-- A Load leaves the actions still to come as they are (R264; log 4). -/
theorem load_keeps_order {image : List Byte} {s t : State} (h : load image s = .next t) :
    t.requests = s.requests ∧ t.agenda = s.agenda := by
  rcases load_cases image s with ⟨_, _, _, hload⟩ | ⟨_, hrefused⟩
  · cases hload.symm.trans h
    exact ⟨rfl, rfl⟩
  · cases hrefused.symm.trans h

/-- Serving an action leaves the actions still to come as they are, whatever the action is (R10, R39; log 4). -/
theorem serve_keeps_order {r : Request} {s t : State} (h : serve r s = .next t) :
    t.requests = s.requests ∧ t.agenda = s.agenda := by
  cases r with
  | step => exact engineStep_keeps_order h
  | load image => exact load_keeps_order h
  | reset p => cases h; exact ⟨rfl, rfl⟩
  | tick => cases h; exact ⟨rfl, rfl⟩
  | setKey k pressed => cases h; exact ⟨rfl, rfl⟩
  | snapshot => cases h; exact ⟨rfl, rfl⟩

/-- A listed request is served first. -/
theorem step_of_listed {r : Request} {later : List Request} {s : State} (h : s.requests = r :: later) :
    step s = serve r { s with requests := later } := by
  obtain ⟨hdue, htaken⟩ := State.due_cons h
  rw [step_due hdue, htaken]

/-- With nothing listed, and no other agent, the engine steps. -/
theorem step_of_engine {s : State} (h : s.requests = []) (ha : s.agenda = .engine) : step s = serve .step s := by
  obtain ⟨hdue, htaken⟩ := State.due_engine h ha
  rw [step_due hdue, htaken]

/-- With nothing listed, the free schedule's action at this turn is served. -/
theorem step_of_free {turn : Nat} {s : State} (h : s.requests = []) (ha : s.agenda = .free turn) :
    step s = serve (Config.schedule turn) { s with agenda := .free (turn + 1) } := by
  obtain ⟨hdue, htaken⟩ := State.due_free h ha
  rw [step_due hdue, htaken]

/-- A run as long as the front of the list serves that front and leaves the rest listed (R240; log 4). -/
theorem run_serves_listed {now later : List Request} {s t : State} (hreq : s.requests = now ++ later)
    (hrun : core.run now.length s = .next t) : t.requests = later ∧ t.agenda = s.agenda := by
  induction now generalizing s with
  | nil =>
    cases hrun
    exact ⟨hreq, rfl⟩
  | cons r now ih =>
    obtain ⟨u, hstep, hrest⟩ := run_succ hrun
    obtain ⟨hu, hagenda⟩ := serve_keeps_order ((step_of_listed hreq).symm.trans hstep)
    obtain ⟨hlater, ht⟩ := ih hu hrest
    exact ⟨hlater, ht.trans hagenda⟩

/-- A run under the free schedule lists nothing and moves the schedule on by one turn a step (R240; log 29). -/
theorem run_follows_schedule {k turn : Nat} {s t : State} (hreq : s.requests = []) (ha : s.agenda = .free turn)
    (hrun : core.run k s = .next t) : t.requests = [] ∧ t.agenda = .free (turn + k) := by
  induction k generalizing s turn with
  | zero =>
    cases hrun
    exact ⟨hreq, ha⟩
  | succ k ih =>
    obtain ⟨u, hstep, hrest⟩ := run_succ hrun
    obtain ⟨hu, hagenda⟩ := serve_keeps_order ((step_of_free hreq ha).symm.trans hstep)
    obtain ⟨ht, hturn⟩ := ih (hu.trans hreq) hagenda hrest
    exact ⟨ht, by rw [hturn, Nat.add_right_comm, Nat.add_assoc]⟩

/-- Settles O55: what one step serves, and, by induction on the list and on the length of the run, the order over a run. -/
theorem actionsAreServedInAFreeOrder : Obligations.ActionsAreServedInAFreeOrder :=
  ⟨fun _ _ _ => step_of_listed, fun _ => step_of_engine, fun _ _ => step_of_free,
    fun _ _ _ _ => run_serves_listed, fun _ _ _ _ => run_follows_schedule⟩

end Sys2Proof.Machine
end

