-- ==== Sys2Proof/Proofs/State.lean ====
section
/-! PROOF. The statements about the state (10_state.md): what an instruction and what an action can change, the invariant that every
action keeps, and what CALL, RET, RND, the flag setters, SetKey, Snapshot and Reset do. -/

namespace Sys2Proof.Machine

/-! ### What an instruction can change (R105) -/

/-- `ChangesOnly`, one clause for each piece. -/
theorem changesOnly_iff {ps : List Piece} {s t : State} : ChangesOnly ps s t ↔
    (.v ∉ ps → t.v = s.v) ∧ (.i ∉ ps → t.i = s.i) ∧ (.pc ∉ ps → t.pc = s.pc) ∧ (.sp ∉ ps → t.depth = s.depth) ∧
    (.stack ∉ ps → t.stack = s.stack) ∧ (.dt ∉ ps → t.dt = s.dt) ∧ (.st ∉ ps → t.st = s.st) ∧
    (.keys ∉ ps → t.keys = s.keys) ∧ (.fb ∉ ps → t.fb = s.fb) ∧ (.mem ∉ ps → ∀ a, t.mem.peek a = s.mem.peek a) ∧
    (.fault ∉ ps → t.fault = s.fault) ∧ (.out ∉ ps → t.out = s.out) ∧ (.started ∉ ps → t.started = s.started) ∧
    (.requests ∉ ps → t.requests = s.requests) ∧ (.agenda ∉ ps → t.agenda = s.agenda) ∧
    (.draws ∉ ps → t.draws = s.draws) := by
  constructor
  · intro h
    exact ⟨h .v, h .i, h .pc, h .sp, h .stack, h .dt, h .st, h .keys, h .fb, h .mem, h .fault, h .out, h .started,
      h .requests, h .agenda, h .draws⟩
  · rintro ⟨hv, hi, hpc, hsp, hstack, hdt, hst, hkeys, hfb, hmem, hfault, hout, hstarted, hrequests, hagenda, hdraws⟩ p
    cases p <;> assumption

/-- An instruction that writes the pieces `ps` leads from `s` to `t`: nothing else changes but the latch and the outcome, which a
fault or a wait writes, and memory is the same list of cells unless it is among the pieces. -/
def Writes (ps : List Piece) (s t : State) : Prop :=
  ChangesOnly (.fault :: .out :: ps) s t ∧ (.mem ∉ ps → t.mem = s.mem)

theorem writes_raise (ps : List Piece) (s : State) (c : Cause) (opcode : Option Word) (info : Option Nat) :
    Writes ps s (s.raise c opcode info) := by
  simp [Writes, changesOnly_iff]

theorem withAccess_writes {α : Type} {ps : List Piece} {i : Instr} {s t : State} {r : Except Nat α} {finish : α → State}
    (hfinish : ∀ a, Writes ps s (finish a)) (h : withAccess i s r finish = .next t) : Writes ps s t := by
  rcases withAccess_cases i s r finish with ⟨a, _, hok⟩ | ⟨e, _, herr⟩
  · cases hok.symm.trans h
    exact hfinish a
  · cases herr.symm.trans h
    exact writes_raise ..

theorem keySkip_writes {i : Instr} {x : Reg} {f : Bool → Bool} {s t : State} (h : keySkip i x f s = .next t) :
    Writes [.pc] s t := by
  rcases keySkip_cases i x f s with ⟨_, hskip⟩ | ⟨_, hraise⟩
  · cases hskip.symm.trans h
    simp [Writes, changesOnly_iff]
  · cases hraise.symm.trans h
    exact writes_raise ..

/-- Every instruction writes the pieces that its rule lists and no other, whether it completes, waits or faults (R105, R222). -/
theorem exec_writes {i : Instr} {s t : State} (h : exec i s = .next t) : Writes i.writes s t := by
  cases i with
  | ret =>
    rcases execRet_cases s with ⟨_, hret⟩ | ⟨_, hret⟩ <;> cases hret.symm.trans h
    · exact writes_raise ..
    · simp [Writes, changesOnly_iff, Instr.writes]
  | call nnn =>
    rcases execCall_cases nnn s with ⟨_, hcall⟩ | ⟨_, hcall⟩ <;> cases hcall.symm.trans h
    · exact writes_raise ..
    · simp [Writes, changesOnly_iff, Instr.writes]
  | skp x => exact keySkip_writes (f := fun pressed => pressed) h
  | sknp x => exact keySkip_writes (f := fun pressed => !pressed) h
  | ldVxK x =>
    rcases execLdVxK_cases x s with ⟨_, hkey⟩ | ⟨_, _, hkey⟩ | ⟨_, _, _, _, hkey⟩ <;> cases hkey.symm.trans h <;>
      simp [Writes, changesOnly_iff, Instr.writes]
  | ldB x => exact withAccess_writes (fun m => by simp [Writes, changesOnly_iff, Instr.writes]) h
  | ldMemVx x => exact withAccess_writes (fun m => by simp [Writes, changesOnly_iff, Instr.writes]) h
  | ldVxMem x => exact withAccess_writes (fun bs => by simp [Writes, changesOnly_iff, Instr.writes]) h
  | drw x y n => exact withAccess_writes (fun rows => by simp [Writes, changesOnly_iff, Instr.writes]) h
  | _ => cases h; simp [Writes, changesOnly_iff, Instr.writes, rndWith]

/-- A piece that the instruction's rule does not list is as before (R105). -/
theorem exec_keeps {i : Instr} {s t : State} {p : Piece} (h : exec i s = .next t) (hp : p ∉ .fault :: .out :: i.writes) :
    p.same s t :=
  (exec_writes h).1 p hp

/-- Only CLS and DRW write the grid (R29). -/
theorem clear_or_draw_of_writes_grid {i : Instr} (h : Piece.fb ∈ i.writes) : i = .cls ∨ ∃ x y n, i = .drw x y n := by
  cases i with
  | cls => exact .inl rfl
  | drw x y n => exact .inr ⟨x, y, n, rfl⟩
  | _ => simp [Instr.writes] at h

/-- What an instruction can do to the grid (R29). -/
theorem exec_grid {i : Instr} {s t : State} (h : exec i s = .next t) :
    t.fb = s.fb ∨ i = .cls ∨ ∃ x y n, i = .drw x y n := by
  by_cases hfb : Piece.fb ∈ i.writes
  · exact .inr (clear_or_draw_of_writes_grid hfb)
  · exact .inl (exec_keeps (p := .fb) h (by simpa using hfb))

/-- What an instruction can do to the stack: keep the slots, with no more of them live, or push its own address, which only CALL
does (R24, R25, R113). -/
theorem exec_stack {i : Instr} {s t : State} (h : exec i s = .next t) :
    (t.depth.val ≤ s.depth.val ∧ t.stack = s.stack) ∨
    ∃ nnn, ∃ hd : s.depth.val < 16, i = .call nnn ∧ t.depth.val = s.depth.val + 1 ∧
      t.stack = s.stack.set s.depth.val s.pc := by
  cases i with
  | call nnn =>
    rcases execCall_cases nnn s with ⟨_, hcall⟩ | ⟨hd, hcall⟩ <;> cases hcall.symm.trans h
    · exact .inl ⟨le_rfl, rfl⟩
    · exact .inr ⟨nnn, hd, rfl, rfl, rfl⟩
  | ret =>
    rcases execRet_cases s with ⟨_, hret⟩ | ⟨_, hret⟩ <;> cases hret.symm.trans h
    · exact .inl ⟨le_rfl, rfl⟩
    · exact .inl ⟨Nat.sub_le .., rfl⟩
  | _ =>
    have hdepth := exec_keeps (p := .sp) h (by simp [Instr.writes])
    exact .inl ⟨(congrArg Fin.val hdepth).le, exec_keeps (p := .stack) h (by simp [Instr.writes])⟩

/-! ### What an instruction can do to memory (R30, R56, R57) -/

/-- A group of reads faults with its base or with the first address beyond memory, whichever is higher (R57, R224). -/
theorem memReads_error_eq {m : Memory} {a n e : Nat} (h : memReads m a n = .error e) : e = max a 0x1000 := by
  rcases Nat.eq_zero_or_pos n with rfl | hn
  · cases h
  · by_cases ha : a + n ≤ 0x1000
    · cases (memReads_ok m ha).symm.trans h
    · cases (memReads_error m hn (by omega)).symm.trans h
      rfl

/-- A group of writes faults with its base or with the first address beyond memory, whichever is higher (R57, R224). -/
theorem memWrites_error_eq {m : Memory} {a e : Nat} {bs : List Byte} (h : memWrites m a bs = .error e) :
    e = max a 0x1000 := by
  rcases Nat.eq_zero_or_pos bs.length with hn | hn
  · rw [List.length_eq_zero_iff.1 hn] at h
    cases h
  · by_cases ha : a + bs.length ≤ 0x1000
    · cases (memWrites_ok m ha).symm.trans h
    · cases (memWrites_error m hn (by omega)).symm.trans h
      rfl

/-- A group of writes that does not fault changes no byte outside its block (R56, R57). -/
theorem peek_memWrites_outside {m m' : Memory} {a x : Nat} {bs : List Byte} (h : memWrites m a bs = .ok m')
    (hx : ¬ (a ≤ x ∧ x < a + bs.length)) : m'.peek x = m.peek x := by
  rcases Nat.eq_zero_or_pos bs.length with hn | hn
  · rw [List.length_eq_zero_iff.1 hn] at h
    cases h
    rfl
  · by_cases ha : a + bs.length ≤ 0x1000
    · cases (memWrites_ok m ha).symm.trans h
      exact Memory.peek_pokes_outside m bs (by omega)
    · cases (memWrites_error m hn (by omega)).symm.trans h

/-- What an instruction can do to memory: keep it, or store one block of its own length from address I up. -/
theorem exec_memory {i : Instr} {s t : State} (h : exec i s = .next t) :
    t.mem = s.mem ∨ ∃ bs : List Byte, bs.length = i.storeLength ∧ memWrites s.mem s.base bs = .ok t.mem := by
  cases i with
  | ldB x =>
    rcases withAccess_cases _ _ _ _ with ⟨m, hok, hnext⟩ | ⟨_, _, hnext⟩ <;> cases hnext.symm.trans h
    · exact .inr ⟨_, rfl, hok⟩
    · exact .inl rfl
  | ldMemVx x =>
    rcases withAccess_cases _ _ _ _ with ⟨m, hok, hnext⟩ | ⟨_, _, hnext⟩ <;> cases hnext.symm.trans h
    · exact .inr ⟨_, length_regsUpTo s x, hok⟩
    · exact .inl rfl
  | _ => exact .inl ((exec_writes h).2 (by simp [Instr.writes]))

/-- An instruction changes no byte outside the block it stores to (R30, R163, R164). -/
theorem exec_peek_outside {i : Instr} {s t : State} {a : Nat} (h : exec i s = .next t) (ha : ¬ i.storesTo s a) :
    t.mem.peek a = s.mem.peek a := by
  rcases exec_memory h with hmem | ⟨bs, hlen, hbs⟩
  · rw [hmem]
  · exact peek_memWrites_outside hbs (hlen ▸ ha)

/-- Every instruction keeps the canonical form of memory (log 24). -/
theorem exec_memory_wf {i : Instr} {s t : State} (hs : s.mem.wf = true) (h : exec i s = .next t) : t.mem.wf = true := by
  rcases exec_memory h with hmem | ⟨bs, _, hbs⟩
  · rwa [hmem]
  · exact wf_memWrites hs hbs

/-- The two instructions that store, and their blocks (R163, R164). -/
theorem storesTo_cases {i : Instr} {s : State} {a : Nat} (h : i.storesTo s a) :
    ∃ x, (i = .ldB x ∧ s.base ≤ a ∧ a ≤ s.base + 2) ∨ (i = .ldMemVx x ∧ s.base ≤ a ∧ a ≤ s.base + x.val) := by
  obtain ⟨hlo, hhi⟩ := h
  cases i with
  | ldB x => exact ⟨x, .inl ⟨rfl, hlo, Nat.le_of_lt_succ hhi⟩⟩
  | ldMemVx x => exact ⟨x, .inr ⟨rfl, hlo, Nat.le_of_lt_succ hhi⟩⟩
  | _ => exact absurd hhi (Nat.not_lt.2 hlo)

/-! ### Where an instruction leaves PC (R104, R111, R118) -/

theorem toNat_immAddr (nnn : Addr12) : (immAddr nnn).toNat = nnn.toNat := by
  simp only [immAddr, BitVec.toNat_setWidth]
  omega

theorem toNat_immAddr_lt (nnn : Addr12) : (immAddr nnn).toNat < 4096 := toNat_immAddr nnn ▸ nnn.isLt

theorem toNat_add_two_le {pc : Word} (h : pc.toNat ≤ 0xFFE) : (pc + 2#16).toNat ≤ 0x10FE := by bv_omega

theorem skipIf_pc_le {s : State} (c : Bool) (h : s.pc.toNat ≤ 0xFFE) : (s.skipIf c).pc.toNat ≤ 0x10FE := by
  rw [State.skipIf_pc]
  split <;> bv_omega

/-- An access that finishes in sequence, like one that faults, leaves PC within the bound. -/
theorem withAccess_pc_le {α : Type} {i : Instr} {s t : State} {r : Except Nat α} {finish : α → State}
    (hpc : s.pc.toNat ≤ 0xFFE) (hfinish : ∀ a, (finish a).pc = s.pc + 2#16) (h : withAccess i s r finish = .next t) :
    t.pc.toNat ≤ 0x10FE := by
  rcases withAccess_cases i s r finish with ⟨a, _, hok⟩ | ⟨e, _, herr⟩
  · cases hok.symm.trans h
    exact hfinish a ▸ toNat_add_two_le hpc
  · cases herr.symm.trans h
    exact hpc.trans (by decide)

theorem keySkip_pc_le {i : Instr} {x : Reg} {f : Bool → Bool} {s t : State} (hpc : s.pc.toNat ≤ 0xFFE)
    (h : keySkip i x f s = .next t) : t.pc.toNat ≤ 0x10FE := by
  rcases keySkip_cases i x f s with ⟨_, hskip⟩ | ⟨_, hraise⟩
  · cases hskip.symm.trans h
    exact skipIf_pc_le _ hpc
  · cases hraise.symm.trans h
    exact hpc.trans (by decide)

/-- The largest value an instruction can give to PC is that of JP V0 (R118): the others leave it at most four past a fetchable
address, at a 12-bit address, or two past a live slot. -/
theorem exec_pc_le {i : Instr} {s t : State} (hinv : s.Inv) (hpc : s.pc.toNat ≤ 0xFFE) (h : exec i s = .next t) :
    t.pc.toNat ≤ 0x10FE := by
  cases i with
  | jp nnn => cases h; exact (toNat_immAddr_lt nnn).le.trans (by decide)
  | jpV0 nnn =>
    cases h
    have hnnn := nnn.isLt
    have hv0 := (s.reg 0).isLt
    simp only [State.jumpTo_pc, BitVec.toNat_ofNat]
    omega
  | call nnn =>
    rcases execCall_cases nnn s with ⟨_, hcall⟩ | ⟨_, hcall⟩ <;> cases hcall.symm.trans h
    · exact hpc.trans (by decide)
    · exact (toNat_immAddr_lt nnn).le.trans (by decide)
  | ret =>
    rcases execRet_cases s with ⟨_, hret⟩ | ⟨hd, hret⟩ <;> cases hret.symm.trans h
    · exact hpc.trans (by decide)
    · exact toNat_add_two_le (hinv.liveSlots ⟨s.depth.val - 1, by omega⟩ (Nat.sub_lt hd Nat.one_pos))
  | seImm x kk | sneImm x kk | seReg x y | sneReg x y => cases h; exact skipIf_pc_le _ hpc
  | skp x => exact keySkip_pc_le (f := fun pressed => pressed) hpc h
  | sknp x => exact keySkip_pc_le (f := fun pressed => !pressed) hpc h
  | ldVxK x =>
    rcases execLdVxK_cases x s with ⟨_, hkey⟩ | ⟨_, _, hkey⟩ | ⟨_, _, _, _, hkey⟩ <;> cases hkey.symm.trans h
    · exact hpc.trans (by decide)
    · exact toNat_add_two_le hpc
    · exact toNat_add_two_le hpc
  | ldB x | ldMemVx x | ldVxMem x | drw x y n => exact withAccess_pc_le hpc (fun _ => rfl) h
  | _ => cases h; exact toNat_add_two_le hpc

/-! ### The record a fault latches (R221 to R227) -/

theorem formed_addressFault {s : State} {i : Instr} {a : Nat} (ha : a < 65536) :
    (s.faultRecord .addressFault (some (encodeWord i)) (some (max a 0x1000))).formed :=
  ⟨_, rfl, by omega, by omega, nofun⟩

/-- A fetch beyond 0xFFE records the form of R224(a). -/
theorem formed_fetchFault (s : State) : (s.faultRecord .addressFault none (some (max s.pc.toNat 0x1000))).formed :=
  ⟨_, rfl, by omega, by have := s.pc.isLt; omega, fun _ => rfl⟩

theorem decodeFamily8_error {w : Word} {e : Reject} (h : decodeFamily8 w = .error e) : e = .noMatch := by
  unfold decodeFamily8 at h
  split at h <;> cases h
  rfl

theorem decodeFamilyE_error {w : Word} {e : Reject} (h : decodeFamilyE w = .error e) : e = .noMatch := by
  unfold decodeFamilyE at h
  split at h <;> cases h
  rfl

theorem decodeFamilyF_error {w : Word} {e : Reject} (h : decodeFamilyF w = .error e) : e = .noMatch := by
  unfold decodeFamilyF at h
  split at h <;> cases h
  rfl

/-- The decoder's one reason to refuse a word is that it has no tag (R79). -/
theorem decodeWord_error {w : Word} {e : Reject} (h : decodeWord w = .error e) : e = .noMatch := by
  unfold decodeWord at h
  split at h
  case h_9 => exact decodeFamily8_error h
  case h_15 => exact decodeFamilyE_error h
  case h_16 => exact decodeFamilyF_error h
  all_goals cases h
  rfl

theorem formed_decodeFault {s : State} {w : Word} {e : Reject} (h : decodeWord w = .error e) :
    (s.faultRecord .decodeFault (some w) (some w.toNat)).formed :=
  ⟨w, rfl, decodeWord_error h ▸ h, rfl⟩

/-- An instruction latches a record only by raising a fault with its own word (R222; log 15). -/
theorem exec_latches_by_raise {i : Instr} {s t : State} {record : FaultRecord} (hrun : s.running) (h : exec i s = .next t)
    (hrec : t.fault = some record) : ∃ c n, t = s.raise c (some (encodeWord i)) n := by
  obtain ⟨_, ht, hends⟩ := exec_cases i s
  cases ht.symm.trans h
  rcases hends with ⟨hfault, _⟩ | rfl | hraise
  · cases (hrun.symm.trans hfault.symm).trans hrec
  · cases hrun.symm.trans hrec
  · exact hraise

/-- An instruction with accesses that latches a record latches that of an address fault (R224). -/
theorem withAccess_latches {α : Type} {i : Instr} {s t : State} {r : Except Nat α} {finish : α → State} {record : FaultRecord}
    (hrun : s.running) (h : withAccess i s r finish = .next t) (hrec : t.fault = some record)
    (hfinish : ∀ a, (finish a).fault = s.fault) (herror : ∀ e, r = .error e → e = max s.base 0x1000) : record.formed := by
  rcases withAccess_cases i s r finish with ⟨a, _, hok⟩ | ⟨e, he, hraise⟩
  · cases hok.symm.trans h
    cases (hrun.symm.trans (hfinish a).symm).trans hrec
  · cases hraise.symm.trans h
    cases hrec
    rw [herror e he]
    exact formed_addressFault s.i.isLt

/-- A key skip that latches a record latches that of a key index fault (R227). -/
theorem keySkip_latches {i : Instr} {x : Reg} {f : Bool → Bool} {s t : State} {record : FaultRecord}
    (hi : i = .skp x ∨ i = .sknp x) (hrun : s.running) (h : keySkip i x f s = .next t) (hrec : t.fault = some record) :
    record.formed := by
  rcases keySkip_cases i x f s with ⟨_, hskip⟩ | ⟨hx, hraise⟩
  · cases hskip.symm.trans h
    cases hrun.symm.trans hrec
  · cases hraise.symm.trans h
    cases hrec
    refine ⟨x, _, ?_, rfl, hx, Nat.le_of_lt_succ (s.reg x).isLt⟩
    rcases hi with rfl | rfl
    · exact .inl rfl
    · exact .inr rfl

/-- A record that an instruction latches has the form of its cause (R221, R223 to R227). -/
theorem exec_latches {i : Instr} {s t : State} {record : FaultRecord} (hrun : s.running) (h : exec i s = .next t)
    (hrec : t.fault = some record) : record.formed := by
  cases i with
  | ret =>
    rcases execRet_cases s with ⟨_, hret⟩ | ⟨_, hret⟩ <;> cases hret.symm.trans h
    · cases hrec
      exact ⟨rfl, rfl⟩
    · cases hrun.symm.trans hrec
  | call nnn =>
    rcases execCall_cases nnn s with ⟨_, hcall⟩ | ⟨_, hcall⟩ <;> cases hcall.symm.trans h
    · cases hrec
      exact ⟨nnn, rfl, rfl⟩
    · cases hrun.symm.trans hrec
  | skp x => exact keySkip_latches (f := fun pressed => pressed) (.inl rfl) hrun h hrec
  | sknp x => exact keySkip_latches (f := fun pressed => !pressed) (.inr rfl) hrun h hrec
  | ldB x | ldMemVx x => exact withAccess_latches hrun h hrec (fun _ => rfl) fun _ => memWrites_error_eq
  | ldVxMem x | drw x y n => exact withAccess_latches hrun h hrec (fun _ => rfl) fun _ => memReads_error_eq
  | ldVxK x =>
    rcases execLdVxK_cases x s with ⟨_, hkey⟩ | ⟨_, _, hkey⟩ | ⟨_, _, _, _, hkey⟩ <;> cases hkey.symm.trans h <;>
      cases hrun.symm.trans hrec
  | _ => cases h; cases hrun.symm.trans hrec

/-! ### What an action can do (R10, R39, R100) -/

/-- The actions that go on, and the states they lead to: an instruction that the engine fetched, one of the two faults before an
instruction, or the request of another agent. -/
inductive Action (s : State) : State → Prop
  | instr {i : Instr} {t : State} (hdue : s.stepsNext) (hrun : s.running) (hpc : s.pc.toNat ≤ 0xFFE)
      (hdecode : decodeWord s.nextWord = .ok i) (hexec : exec i s.taken.beginStep = .next t) : Action s t
  | fetchFault (hdue : s.stepsNext) (hrun : s.running) :
      Action s (s.taken.beginStep.raise .addressFault none (some (max s.pc.toNat 0x1000)))
  | decodeFault {e : Reject} (hdue : s.stepsNext) (hrun : s.running) (hdecode : decodeWord s.nextWord = .error e) :
      Action s (s.taken.beginStep.raise .decodeFault (some s.nextWord) (some s.nextWord.toNat))
  | tick : Action s (tick s.taken)
  | setKey (k : Key) (pressed : Bool) (hdue : s.due = .setKey k pressed) : Action s (setKey k pressed s.taken)
  | snapshot : Action s (snapshot s.taken)
  | load (image : List Byte) (hdue : s.due = .load image) (hlen : image.length ≤ 3584) :
      Action s { s.taken with mem := s.taken.mem.pokes 0x200 image, out := .silent }
  | reset (p : ResetParams) (hdue : s.due = .reset p) : Action s (resetRequest p s.taken)

/-- The engine's Step is an action. -/
theorem action_of_engineStep {s t : State} (hdue : s.stepsNext) (h : engineStep s.taken = .next t) : Action s t := by
  rcases engineStep_cases s.taken with ⟨_, _, hhalt⟩ | ⟨hrun, _, hfetch⟩ | ⟨hrun, hpc, w, hw, hword⟩
  · cases hhalt.symm.trans h
  · cases hfetch.symm.trans h
    rw [State.taken_pc]
    exact .fetchFault hdue (s.taken_fault.symm.trans hrun)
  · have hrun : s.running := s.taken_fault.symm.trans hrun
    rw [State.taken_pc] at hpc
    obtain rfl : w = s.nextWord := by simpa [State.nextWord] using hw
    rcases hword with ⟨i, hdecode, hexec⟩ | ⟨e, hdecode, hraise⟩
    · exact .instr hdue hrun (Nat.le_of_lt_succ hpc) hdecode (hexec.symm.trans h)
    · cases hraise.symm.trans h
      exact .decodeFault hdue hrun hdecode

/-- A step that goes on is one of the actions. -/
theorem action_of_step {s t : State} (h : step s = .next t) : Action s t := by
  rcases step_cases s with ⟨hdue, hstep⟩ | ⟨_, hstep⟩ | ⟨k, pressed, hdue, hstep⟩ | ⟨_, hstep⟩ | ⟨image, hdue, hstep⟩ |
    ⟨p, hdue, hstep⟩
  · exact action_of_engineStep hdue (hstep.symm.trans h)
  · cases hstep.symm.trans h
    exact .tick
  · cases hstep.symm.trans h
    exact .setKey k pressed hdue
  · cases hstep.symm.trans h
    exact .snapshot
  · rcases load_cases image s.taken with ⟨hlen, _, _, hload⟩ | ⟨_, hrefused⟩
    · cases hload.symm.trans (hstep.symm.trans h)
      exact .load image hdue hlen
    · cases hrefused.symm.trans (hstep.symm.trans h)
  · cases hstep.symm.trans h
    exact .reset p hdue

/-! ### The invariant -/

/-- The invariant speaks of memory, PC, the stack and the latch only. -/
theorem State.Inv.of_same {s t : State} (h : s.Inv) (hmem : t.mem = s.mem) (hpc : t.pc = s.pc) (hdepth : t.depth = s.depth)
    (hstack : t.stack = s.stack) (hfault : t.fault = s.fault) : t.Inv where
  memory := hmem ▸ h.memory
  pcBound := hpc ▸ h.pcBound
  liveSlots := by rw [hdepth, hstack]; exact h.liveSlots
  latchForm := hfault ▸ h.latchForm
  latchPc := by rw [hfault, hpc]; exact h.latchPc

theorem State.Inv.beginStep_taken {s : State} (h : s.Inv) : s.taken.beginStep.Inv :=
  h.of_same s.taken_mem s.taken_pc s.taken_depth s.taken_stack s.taken_fault

/-- A fault whose record has its cause's form keeps the invariant (R221, R222). -/
theorem State.Inv.raise {s : State} (h : s.Inv) {c : Cause} {opcode : Option Word} {info : Option Nat}
    (hform : (s.faultRecord c opcode info).formed) : (s.raise c opcode info).Inv where
  memory := h.memory
  pcBound := h.pcBound
  liveSlots := h.liveSlots
  latchForm := by rintro r ⟨⟩; exact hform
  latchPc := by rintro r ⟨⟩; rfl

/-- A record that an instruction latches has the PC of the instruction, which stays (R221, R222). -/
theorem exec_latches_pc {i : Instr} {s t : State} {record : FaultRecord} (hrun : s.running) (h : exec i s = .next t)
    (hrec : t.fault = some record) : record.pc = t.pc := by
  obtain ⟨c, n, rfl⟩ := exec_latches_by_raise hrun h hrec
  cases hrec
  rfl

/-- The live slots after an instruction are those before it and, after CALL, its own address (R113). -/
theorem exec_liveSlots {i : Instr} {s t : State} (hinv : s.Inv) (hpc : s.pc.toNat ≤ 0xFFE) (h : exec i s = .next t) :
    ∀ k : Fin 16, k.val < t.depth.val → (t.stack[k.val]).toNat ≤ 0xFFE := by
  intro k hk
  rcases exec_stack h with ⟨hdepth, hstack⟩ | ⟨nnn, hd, _, hdepth, hstack⟩
  · rw [hstack]
    exact hinv.liveSlots k (hk.trans_le hdepth)
  · simp only [hstack, Vector.getElem_set]
    split
    · exact hpc
    · exact hinv.liveSlots k (by omega)

/-- An instruction that runs at a fetchable PC of a running machine keeps the invariant. -/
theorem exec_keeps_inv {i : Instr} {s t : State} (hinv : s.Inv) (hrun : s.running) (hpc : s.pc.toNat ≤ 0xFFE)
    (h : exec i s = .next t) : t.Inv where
  memory := exec_memory_wf hinv.memory h
  pcBound := exec_pc_le hinv hpc h
  liveSlots := exec_liveSlots hinv hpc h
  latchForm _ := exec_latches hrun h
  latchPc _ := exec_latches_pc hrun h

theorem ResetParams.font_wf (p : ResetParams) : (Memory.pokes [] 0 p.font.toList).wf = true :=
  Memory.wf_pokes rfl (by simp)

/-- Memory after a Reset has the canonical form, whatever the open values (R36, R262; log 24). -/
theorem ResetParams.memory_wf (p : ResetParams) : p.memory.wf = true :=
  Memory.wf_pokes p.font_wf (by simp only [List.length_take]; omega)

/-- The state after a Reset meets the invariant, whatever the state before and the open values. -/
theorem inv_resetRequest (p : ResetParams) (s : State) : (resetRequest p s).Inv where
  memory := p.memory_wf
  pcBound := show (0x200#16 : Word).toNat ≤ 0x10FE by decide
  liveSlots := nofun
  latchForm := nofun
  latchPc := nofun

/-- Every action keeps the invariant. -/
theorem Action.keeps_inv {s t : State} (hinv : s.Inv) (h : Action s t) : t.Inv := by
  cases h with
  | instr _ hrun hpc _ hexec =>
    exact exec_keeps_inv hinv.beginStep_taken (s.taken_fault.trans hrun) (s.taken_pc.symm ▸ hpc) hexec
  | fetchFault => exact hinv.beginStep_taken.raise (by simpa using formed_fetchFault s.taken.beginStep)
  | decodeFault _ _ hdecode => exact hinv.beginStep_taken.raise (formed_decodeFault hdecode)
  | tick | setKey | snapshot => exact hinv.of_same s.taken_mem s.taken_pc s.taken_depth s.taken_stack s.taken_fault
  | load image _ hlen =>
    have htaken := hinv.of_same s.taken_mem s.taken_pc s.taken_depth s.taken_stack s.taken_fault
    exact ⟨Memory.wf_pokes htaken.memory (by omega), htaken.pcBound, htaken.liveSlots, htaken.latchForm, htaken.latchPc⟩
  | reset p => exact inv_resetRequest p s.taken

/-- Slots that stay live with their values need no CALL. -/
theorem SlotsComeFromCalls.of_kept {s t : State} (hdepth : t.depth.val ≤ s.depth.val) (hstack : t.stack = s.stack) :
    SlotsComeFromCalls s t := fun k hk =>
  .inl ⟨hk.trans_le hdepth, by rw [hstack]⟩

/-- A slot that an action makes live is the PC of the CALL it fetched (R25, R113). -/
theorem Action.slotsComeFromCalls {s t : State} (h : Action s t) : SlotsComeFromCalls s t := by
  have hdepth := congrArg Fin.val s.taken_depth
  cases h with
  | instr hdue _ hpc hdecode hexec =>
    rcases exec_stack hexec with ⟨hle, hstack⟩ | ⟨nnn, hd, rfl, hsucc, hstack⟩
    · exact .of_kept (hle.trans_eq hdepth) (hstack.trans s.taken_stack)
    · intro k hk
      simp only [hstack, hsucc, State.beginStep_depth, State.beginStep_stack, State.beginStep_pc, State.taken_depth,
        State.taken_stack, State.taken_pc] at hk ⊢
      by_cases hk' : k.val = s.depth.val
      · exact .inr ⟨hdue, hpc, by simp [hk'], nnn, hdecode⟩
      · exact .inl ⟨by omega, Vector.getElem_set_ne _ _ (Ne.symm hk')⟩
  | reset p => exact nofun
  | _ => exact .of_kept hdepth.le s.taken_stack

/-- Settles O60: a step that goes on is one of the actions, and each of them keeps the invariant and the origin of the live
slots. -/
theorem everyActionKeepsTheInvariant : Obligations.EveryActionKeepsTheInvariant := fun _ _ hinv hstep =>
  ⟨(action_of_step hstep).keeps_inv hinv, (action_of_step hstep).slotsComeFromCalls⟩

/-! ### Who changes the latch, the grid, the keys and memory -/

/-- An action of a faulted machine keeps the record, unless it is a Reset (R106, R230, R244). -/
theorem Action.keeps_record {s t : State} {r : FaultRecord} (h : Action s t) (hr : s.fault = some r) :
    t.fault = some r ∨ ∃ p, s.due = .reset p ∧ t.fault = none := by
  cases h with
  | instr _ hrun => cases hrun.symm.trans hr
  | fetchFault _ hrun => cases hrun.symm.trans hr
  | decodeFault _ hrun => cases hrun.symm.trans hr
  | tick | setKey | snapshot | load => exact .inl (s.taken_fault.trans hr)
  | reset p hdue => exact .inr ⟨p, hdue, rfl⟩

/-- An action that latches a record is a Step, and its outcome is the record (R222). -/
theorem Action.latches {s t : State} {r : FaultRecord} (h : Action s t) (hrun : s.running) (hr : t.fault = some r) :
    s.stepsNext ∧ t.out = .fault r := by
  have htaken : s.taken.fault = none := s.taken_fault.trans hrun
  cases h with
  | instr hdue _ _ _ hexec =>
    obtain ⟨c, n, rfl⟩ := exec_latches_by_raise (s := s.taken.beginStep) htaken hexec hr
    cases hr
    exact ⟨hdue, rfl⟩
  | fetchFault hdue => cases hr; exact ⟨hdue, rfl⟩
  | decodeFault hdue => cases hr; exact ⟨hdue, rfl⟩
  | tick | setKey | snapshot | load => cases htaken.symm.trans hr
  | reset p => cases hr

/-- Settles O12. -/
theorem latchIsSetByStepAndClearedByReset : Obligations.LatchIsSetByStepAndClearedByReset := fun _ _ hstep =>
  ⟨fun _ => (action_of_step hstep).keeps_record, fun hrun _ => (action_of_step hstep).latches hrun⟩

/-- Settles O56: of the instructions only CLS and DRW list the grid, and of the other agents' actions only Reset writes it. -/
theorem onlyClearDrawAndResetChangeTheGrid : Obligations.OnlyClearDrawAndResetChangeTheGrid := by
  intro s t hstep hfb
  cases action_of_step hstep with
  | instr hdue _ _ hdecode hexec =>
    refine .inr ⟨hdue, ?_⟩
    rcases exec_grid hexec with hsame | rfl | ⟨x, y, n, rfl⟩
    · exact absurd (hsame.trans s.taken_fb) hfb
    · exact .inl hdecode
    · exact .inr ⟨x, y, n, hdecode⟩
  | reset p hdue => exact .inl ⟨p, hdue⟩
  | _ => exact absurd s.taken_fb hfb

/-- Settles O57: no instruction changes what the key agent owns. -/
theorem onlySetKeyAndResetChangeKeys : Obligations.OnlySetKeyAndResetChangeKeys := by
  intro s t hstep hkeys
  cases action_of_step hstep with
  | instr _ _ _ _ hexec =>
    obtain ⟨hsame, _⟩ := exec_inputs hexec
    exact absurd (hsame.trans s.taken_keys) hkeys
  | setKey k pressed hdue => exact .inl ⟨k, pressed, hdue⟩
  | reset p hdue => exact .inr ⟨p, hdue⟩
  | _ => exact absurd s.taken_keys hkeys

/-- Settles O58: a byte that an instruction changes lies in the block it stores to, and only LD B and LD [I], Vx store. -/
theorem onlyStoresChangeMemory : Obligations.OnlyStoresChangeMemory := by
  intro s t a hstep ha
  have htaken : s.taken.mem.peek a = s.mem.peek a := by rw [s.taken_mem]
  cases action_of_step hstep with
  | @instr i _ hdue _ _ hdecode hexec =>
    have hstores : i.storesTo s.taken.beginStep a := by
      by_contra hout
      exact ha ((exec_peek_outside hexec hout).trans htaken)
    have hbase : s.taken.beginStep.base = s.base := congrArg BitVec.toNat s.taken_i
    obtain ⟨x, ⟨rfl, hblock⟩ | ⟨rfl, hblock⟩⟩ := storesTo_cases hstores <;> rw [hbase] at hblock
    · exact .inr (.inr ⟨hdue, x, .inl ⟨hdecode, hblock⟩⟩)
    · exact .inr (.inr ⟨hdue, x, .inr ⟨hdecode, hblock⟩⟩)
  | load image hdue => exact .inr (.inl ⟨image, hdue⟩)
  | reset p hdue => exact .inl ⟨p, hdue⟩
  | _ => exact absurd htaken ha

/-! ### The stack instructions -/

/-- The word of CALL (R75). -/
theorem toNat_encodeWord_call (nnn : Addr12) : (encodeWord (.call nnn)).toNat = 0x2000 + nnn.toNat := by
  have := nnn.isLt
  simp only [encodeWord, formatA, BitVec.toNat_ofNat]
  omega

/-- Settles O20, from the two cases of CALL: no slot is free, or the slot above SP is. -/
theorem callPushesItsOwnAddress : Obligations.CallPushesItsOwnAddress := by
  intro nnn s
  rcases execCall_cases nnn s with ⟨hd, hcall⟩ | ⟨hd, hcall⟩
  · have hsp : s.sp = 15 := by simp only [State.sp]; omega
    exact ⟨absurd hsp, fun _ => ⟨_, toNat_encodeWord_call nnn, hcall, rfl⟩⟩
  · have hsp : s.sp ≠ 15 := by simp only [State.sp]; omega
    refine ⟨fun _ => ⟨_, hcall, ?_, fun k => ?_, toNat_immAddr nnn, by simp [changesOnly_iff]⟩, fun h => absurd h hsp⟩
    · simp only [State.sp]
      omega
    · have hk : (k.val : Int) = s.sp + 1 ↔ s.depth.val = k.val := by simp only [State.sp]; omega
      simp only [Vector.getElem_set, hk]

/-- Settles O21, from the two cases of RET: no slot is live, or the slot at SP is. -/
theorem returnPopsTheCallAddress : Obligations.ReturnPopsTheCallAddress := by
  intro s
  rcases execRet_cases s with ⟨hd, hret⟩ | ⟨hd, hret⟩
  · have hsp : s.sp = -1 := by simp only [State.sp]; omega
    exact ⟨fun k hk => by omega, fun _ => ⟨hret, rfl⟩⟩
  · have hsp : s.sp ≠ -1 := by simp only [State.sp]; omega
    refine ⟨fun k hk => ⟨_, hret, ?_, ?_, by simp [changesOnly_iff]⟩, fun h => absurd h hsp⟩
    · have htop : s.depth.val - 1 = k.val := by simp only [State.sp] at hk; omega
      simp only [htop, BitVec.toNat_add]
      rfl
    · simp only [State.sp]
      omega

/-! ### The canonical form of memory -/

/-- A canonical memory and one that lists only later addresses read differently at the first address. -/
theorem Memory.peek_head_ne {lo k : Nat} {b : Byte} {m m' : Memory} (h : wfFrom lo ((k, b) :: m) = true)
    (h' : wfFrom (k + 1) m' = true) : peek ((k, b) :: m) k ≠ peek m' k := by
  obtain ⟨_, _, hb, _⟩ := (wfFrom_cons ..).1 h
  rwa [peek_cons, if_pos rfl, peek_below h' (Nat.lt_succ_self k)]

/-- The tails of two canonical memories with the same first cell read alike when the memories do. -/
theorem Memory.peek_tail_eq {k : Nat} {b : Byte} {m m' : Memory} (h : wfFrom (k + 1) m = true) (h' : wfFrom (k + 1) m' = true)
    (hpeek : ∀ a, peek ((k, b) :: m) a = peek ((k, b) :: m') a) (a : Nat) : peek m a = peek m' a := by
  rcases Nat.lt_or_ge k a with ha | ha
  · simpa only [peek_cons, if_neg ha.ne] using hpeek a
  · rw [peek_below h (Nat.lt_succ_of_le ha), peek_below h' (Nat.lt_succ_of_le ha)]

/-- Canonical memories that read alike are equal, from any lowest address. -/
theorem Memory.ext_peek {lo : Nat} {m m' : Memory} (h : wfFrom lo m = true) (h' : wfFrom lo m' = true)
    (hpeek : ∀ a, peek m a = peek m' a) : m = m' := by
  induction m generalizing lo m' with
  | nil =>
    cases m' with
    | nil => rfl
    | cons c' m' => exact absurd (hpeek c'.1).symm (peek_head_ne h' (wfFrom_nil _))
  | cons c m ih =>
    cases m' with
    | nil => exact absurd (hpeek c.1) (peek_head_ne h (wfFrom_nil _))
    | cons c' m' =>
      obtain ⟨k, b⟩ := c
      obtain ⟨k', b'⟩ := c'
      obtain ⟨_, hk, hb, htail⟩ := (wfFrom_cons ..).1 h
      obtain ⟨_, hk', hb', htail'⟩ := (wfFrom_cons ..).1 h'
      rcases Nat.lt_trichotomy k k' with hlt | rfl | hlt
      · exact absurd (hpeek k) (peek_head_ne h ((wfFrom_cons ..).2 ⟨hlt, hk', hb', htail'⟩))
      · obtain rfl : b = b' := by simpa only [peek_cons, if_true] using hpeek k
        rw [ih htail htail' (peek_tail_eq htail htail' hpeek)]
      · exact absurd (hpeek k').symm (peek_head_ne h' ((wfFrom_cons ..).2 ⟨hlt, hk, hb, htail⟩))

/-- Settles O32, by induction on the two lists of cells. -/
theorem memoriesThatReadAlikeAreEqual : Obligations.MemoriesThatReadAlikeAreEqual := fun _ _ h h' =>
  Memory.ext_peek h h'

/-! ### RND and the flag setters -/

theorem movesPc_two {s t : State} (h : t.pc = s.pc + 2#16) : MovesPc 2 s t := by
  rw [MovesPc, h, BitVec.toNat_add]
  rfl

/-- Settles O28: RND stores the bitwise AND of the free byte and `kk`. -/
theorem randomIsMaskedAndDrawConsumed : Obligations.RandomIsMaskedAndDrawConsumed := by
  intro x kk s
  refine ⟨_, rfl, ?_⟩
  have hx : ((rndWith s.rnd x kk s).consumeDraw).reg x = Config.rnd s.draws &&& kk := State.reg_setReg_self ..
  rw [hx]
  refine ⟨fun b => BitVec.getLsbD_and, ?_, ?_, ?_, rfl, fun r hr => ?_, movesPc_two rfl, by simp [changesOnly_iff, rndWith]⟩
  · rw [BitVec.toNat_and]
    exact Nat.and_le_right
  · rintro rfl
    exact BitVec.and_zero
  · rintro rfl
    exact BitVec.and_allOnes
  · exact (State.reg_setReg ..).trans (if_neg hr)

theorem flagOf_zero_or_one (c : Bool) : flagOf c = 0 ∨ flagOf c = 1 := by
  cases c
  · exact .inl rfl
  · exact .inr rfl

theorem shrFlag_zero_or_one (a : Byte) : shrFlag a = 0 ∨ shrFlag a = 1 := by
  have hbit : (shrFlag a).toNat = a.toNat % 2 := by
    rw [shrFlag, BitVec.toNat_and]
    exact Nat.and_one_is_mod _
  rcases Nat.mod_two_eq_zero_or_one a.toNat with h | h
  · exact .inl (BitVec.eq_of_toNat_eq (hbit.trans h))
  · exact .inr (BitVec.eq_of_toNat_eq (hbit.trans h))

/-- VF is written last, so it holds the flag whatever register `x` names (R139). -/
theorem flag_of_setRegFlag {x : Reg} {data flag : Byte} {s t : State} (hflag : flag = 0 ∨ flag = 1)
    (h : Host.Outcome.next (s.setRegFlag x data flag).advance = (.next t : Result)) : t.reg regF = 0 ∨ t.reg regF = 1 := by
  cases h
  rwa [State.reg_advance, State.setRegFlag, State.reg_setReg_self]

/-- DRW that does not fault leaves the collision bit in VF (R182). -/
theorem exec_drw_flag {x y : Reg} {n : Nibble} {s t : State} (h : exec (.drw x y n) s = .next t) (hfault : t.fault = none) :
    t.reg regF = 0 ∨ t.reg regF = 1 := by
  rcases withAccess_cases _ _ _ _ with ⟨rows, _, hok⟩ | ⟨_, _, hraise⟩
  · cases hok.symm.trans h
    rw [State.reg_advance, State.reg_setReg_self]
    exact flagOf_zero_or_one _
  · cases hraise.symm.trans h
    cases hfault

/-- Settles O29: each of the six writes VF last, with a value that is 0 or 1. -/
theorem flagWritesAreZeroOrOne : Obligations.FlagWritesAreZeroOrOne := by
  intro x y n i s t hi _ hexec hfault
  simp only [List.mem_cons, List.not_mem_nil, or_false] at hi
  rcases hi with rfl | rfl | rfl | rfl | rfl | rfl
  · exact flag_of_setRegFlag (flagOf_zero_or_one _) hexec
  · exact flag_of_setRegFlag (flagOf_zero_or_one _) hexec
  · exact flag_of_setRegFlag (flagOf_zero_or_one _) hexec
  · exact flag_of_setRegFlag (shrFlag_zero_or_one _) hexec
  · exact flag_of_setRegFlag (flagOf_zero_or_one _) hexec
  · exact exec_drw_flag hexec hfault

/-! ### The other agents -/

/-- Settles O50. -/
theorem setKeyWritesOneFlag : Obligations.SetKeyWritesOneFlag := by
  intro s k pressed hdue
  refine ⟨_, step_due hdue, fun j => ?_, by simp [changesOnly_iff]⟩
  simp only [setKey_keys, State.taken_keys, Vector.getElem_set, Fin.ext_iff, eq_comm]

/-- Settles O51. -/
theorem snapshotAnswersTheGrid : Obligations.SnapshotAnswersTheGrid := fun s hdue =>
  ⟨_, step_due hdue, congrArg Output.snapshot s.taken_fb, by simp [changesOnly_iff]⟩

theorem reg_reset (r : Reg) : State.reset.reg r = 0 := Vector.getElem_replicate ..

theorem keys_reset (k : Key) : State.reset.keys[k.val] = false := Vector.getElem_replicate ..

theorem pixel_reset (r : Fin 32) (c : Fin 64) : State.reset.fb.pixel r c = false := Grid.pixel_clear r c

/-- Settles O54. -/
theorem resetStateHasTheSpecsValues : Obligations.ResetStateHasTheSpecsValues :=
  ⟨reg_reset, rfl, rfl, keys_reset, pixel_reset, rfl⟩

/-! #### Memory after a Reset (R36, R262) -/

/-- The font is at 0x000 to 0x04F. -/
theorem ResetParams.peek_font (p : ResetParams) (a : Nat) (h : a < 80) : p.memory.peek a = p.font[a] := by
  have hinside := Memory.peek_pokes_inside (a := 0) (j := a) (m := []) (bs := p.font.toList) rfl (by simp) (by simpa using h)
  rw [ResetParams.memory, Memory.peek_pokes_outside _ _ (.inl h)]
  simpa using hinside

/-- The listed bytes are at 0x050 up. -/
theorem ResetParams.peek_listed (p : ResetParams) (j : Nat) (h : j < p.mem.length) (hj : j < 4016) :
    p.memory.peek (0x50 + j) = p.mem[j] := by
  have hlen : (p.mem.take 4016).length ≤ 4016 := List.length_take_le ..
  rw [ResetParams.memory, Memory.peek_pokes_inside p.font_wf (by omega) (by rw [List.length_take]; omega),
    List.getElem_take]

/-- The bytes that the request does not list are 0 (log 28). -/
theorem ResetParams.peek_unlisted (p : ResetParams) (j : Nat) (h : p.mem.length ≤ j) : p.memory.peek (0x50 + j) = 0 := by
  have hlen : (p.mem.take 4016).length ≤ j := (List.length_take_le' ..).trans h
  rw [ResetParams.memory, Memory.peek_pokes_outside _ _ (.inr (by omega)),
    Memory.peek_pokes_outside _ _ (.inr (by simp)), Memory.peek_nil, Memory.unlisted, if_neg (by omega)]

/-- Settles O53. -/
theorem resetRestoresEveryPiece : Obligations.ResetRestoresEveryPiece := fun s p hdue =>
  ⟨_, step_due hdue, reg_reset, rfl, rfl, rfl, rfl, rfl, rfl, keys_reset, pixel_reset, rfl, nofun,
    p.peek_font, p.peek_listed, fun j h _ => p.peek_unlisted j h, p.memory_wf, rfl, rfl, rfl, s.taken_draws⟩

end Sys2Proof.Machine
end

