-- ==== Sys2Proof/Proofs/Memory.lean ====
section
/-! PROOF. The statements about memory (20_memory.md): the access primitives, the fetch, the instructions that store and load bytes at
I, a store that the next fetch sees, and DRW. -/

namespace Sys2Proof.Machine

/-! ### One cell and one word (R52, R55, R56, R101) -/

/-- What every address reads as after one write. -/
theorem Memory.peek_poke {m : Memory} (hm : m.wf = true) (a : Nat) (v : Byte) (b : Nat) :
    (m.poke a v).peek b = if b = a then v else m.peek b := by
  split
  next h => exact h ▸ peek_poke_self v hm
  next h => exact peek_poke_ne m v h

/-- Settles O31. -/
theorem accessPrimitivesReadAndWriteOneCell : Obligations.AccessPrimitivesReadAndWriteOneCell := fun m a v hm =>
  ⟨fun h => ⟨memRead_ok m h, _, memWrite_ok m v h, Memory.wf_poke v hm h, Memory.peek_poke hm a v⟩,
    fun h => ⟨memRead_error m h, memWrite_error m v h⟩⟩

/-- Settles O7: the two bytes of a word that lies inside memory, and the lowest address that does not exist otherwise. -/
theorem fetchIsBigEndianAndBounded : Obligations.FetchIsBigEndianAndBounded := by
  intro m pc
  refine ⟨fun h => ⟨_, fetch_ok m pc (by omega), wordOfBytes_toNat ..⟩, fun h => ?_, fun h => ?_⟩
  · rw [fetch_error m pc (by omega), h]
    rfl
  · rw [fetch_error m pc (by omega), max_eq_left (by omega)]

/-! ### Instructions with accesses at I (R57, R222, R224) -/

theorem withAccess_ok {α : Type} {i : Instr} {s : State} {r : Except Nat α} {finish : α → State} {a : α} (h : r = .ok a) :
    withAccess i s r finish = .next (finish a) := by
  rw [h]
  rfl

/-- The record and the latch of an access beyond memory, as the statements write them. -/
theorem withAccess_error {α : Type} {i : Instr} {s : State} {r : Except Nat α} {finish : α → State} {e : Nat}
    (h : r = .error e) :
    withAccess i s r finish = .next (s.latch ⟨.addressFault, some (encodeWord i), s.pc, some e⟩) := by
  rw [h]
  rfl

/-- No read at all cannot fault, wherever it would start (R182). -/
theorem memReads_ok_of_zero_or_le {a n : Nat} (m : Memory) (h : n = 0 ∨ a + n ≤ 0x1000) :
    memReads m a n = .ok ((List.range n).map fun j => m.peek (a + j)) := by
  rcases h with rfl | h
  · rfl
  · exact memReads_ok m h

/-! ### LD B (R163) -/

theorem exec_ldB_ok {x : Reg} {s : State} (h : s.i.toNat + 2 ≤ 0xFFF) :
    exec (.ldB x) s = .next { s with mem := s.mem.pokes s.i.toNat (bcdDigits (s.reg x)) }.advance :=
  withAccess_ok (memWrites_ok s.mem (Nat.succ_le_succ h))

theorem toNat_bcdDigits (a : Byte) :
    (bcdDigits a).map BitVec.toNat = [a.toNat / 100, a.toNat / 10 % 10, a.toNat % 10] := by
  have := a.isLt
  simp only [bcdDigits, List.map_cons, List.map_nil, BitVec.toNat_ofNat, List.cons.injEq, and_true]
  omega

/-- The digits lie one after the other where they were stored. -/
theorem toNat_peek_bcdDigits {m : Memory} {i j : Nat} (a : Byte) (hm : m.wf = true) (hi : i + 2 ≤ 0xFFF) (hj : j < 3) :
    ((m.pokes i (bcdDigits a)).peek (i + j)).toNat = [a.toNat / 100, a.toNat / 10 % 10, a.toNat % 10][j] := by
  rw [Memory.peek_pokes_inside hm (Nat.succ_le_succ hi) hj]
  simp only [← toNat_bcdDigits]
  exact (List.getElem_map ..).symm

/-- Settles O33: the digits fit below 0x1000, or the stores fault. -/
theorem bcdStoresThreeDigits : Obligations.BcdStoresThreeDigits := by
  intro x s hm
  refine ⟨fun h => ⟨_, exec_ldB_ok h, ?_, ?_, ?_, fun a ha => ?_, movesPc_two rfl, by simp [changesOnly_iff]⟩,
    fun h => ⟨?_, rfl⟩⟩
  · exact toNat_peek_bcdDigits (j := 0) _ hm h (by decide)
  · exact toNat_peek_bcdDigits (j := 1) _ hm h (by decide)
  · exact toNat_peek_bcdDigits (j := 2) _ hm h (by decide)
  · refine Memory.peek_pokes_outside _ _ ?_
    simp only [bcdDigits, List.length_cons, List.length_nil]
    omega
  · exact withAccess_error (memWrites_error s.mem (Nat.succ_pos _) (Nat.succ_lt_succ h))

/-! ### LD [I], Vx (R62, R164) -/

theorem exec_ldMemVx_ok {x : Reg} {s : State} (h : s.i.toNat + x.val ≤ 0xFFF) :
    exec (.ldMemVx x) s = .next { s with mem := s.mem.pokes s.i.toNat (s.regsUpTo x) }.advance :=
  withAccess_ok (memWrites_ok s.mem (by rw [length_regsUpTo]; exact Nat.succ_le_succ h))

/-- Register `j` of the block lies `j` bytes above its start. -/
theorem peek_pokes_regsUpTo {x j : Reg} {s : State} {m : Memory} {a : Nat} (hm : m.wf = true) (ha : a + x.val ≤ 0xFFF)
    (hj : j ≤ x) : (m.pokes a (s.regsUpTo x)).peek (a + j.val) = s.reg j := by
  have hlen := length_regsUpTo s x
  have hle : j.val ≤ x.val := hj
  rw [Memory.peek_pokes_inside hm (by omega) (by omega), getElem_regsUpTo]
  rfl

/-- Settles O34: the block fits below 0x1000, or the stores fault. -/
theorem blockStoreWritesV0ToVx : Obligations.BlockStoreWritesV0ToVx := by
  intro x s hm
  have hlen := length_regsUpTo s x
  refine ⟨fun h => ⟨_, exec_ldMemVx_ok h, fun j hj => peek_pokes_regsUpTo hm h hj, fun a ha => ?_, movesPc_two rfl,
    by simp [changesOnly_iff]⟩, fun h => ⟨?_, rfl⟩⟩
  · exact Memory.peek_pokes_outside _ _ (by omega)
  · exact withAccess_error (memWrites_error s.mem (by omega) (by rw [hlen]; exact Nat.succ_lt_succ h))

/-- Settles O37: PC moves to I, where V0 and V1 now are. -/
theorem storedWordIsFetchedNext : Obligations.StoredWordIsFetchedNext := by
  intro x s hm hx hi hfits
  have hpc : s.pc + 2#16 = s.i := by bv_omega
  refine ⟨_, _, exec_ldMemVx_ok hfits, fetch_ok _ _ (by rw [State.advance_pc, hpc]; omega), ?_⟩
  have hv0 := peek_pokes_regsUpTo (j := 0) (s := s) hm hfits (Nat.zero_le _)
  have hv1 := peek_pokes_regsUpTo (j := 1) (s := s) hm hfits hx
  rw [wordOfBytes_toNat, State.advance_pc, hpc, ← hv0, ← hv1]
  rfl

/-! ### LD Vx, [I] (R165) -/

theorem exec_ldVxMem_ok {x : Reg} {s : State} (h : s.i.toNat + x.val ≤ 0xFFF) :
    exec (.ldVxMem x) s = .next
      { s with v := loadRegs s.v 0 ((List.range (x.val + 1)).map fun j => s.mem.peek (s.i.toNat + j)) }.advance :=
  withAccess_ok (memReads_ok s.mem (Nat.succ_le_succ h))

/-- Settles O35: the block lies below 0x1000, or the reads fault. -/
theorem blockLoadReadsV0ToVx : Obligations.BlockLoadReadsV0ToVx := by
  intro x s
  refine ⟨fun h => ⟨_, exec_ldVxMem_ok h, fun j hj => ?_, fun r hr => ?_, movesPc_two rfl, by simp [changesOnly_iff]⟩,
    fun h => ⟨?_, rfl⟩⟩
  · refine (loadRegs_inside _ 0 _ j (Nat.zero_le _) ?_).trans ?_
    · simpa using Nat.lt_succ_of_le hj
    · simp
  · refine loadRegs_outside _ 0 _ r (.inr ?_)
    simpa using Nat.lt_of_not_le hr
  · exact withAccess_error (memReads_error s.mem (Nat.succ_pos _) (Nat.succ_lt_succ h))

/-! ### DRW (R182) -/

theorem toNat_flagOf (c : Bool) : (flagOf c).toNat = if c then 1 else 0 := by
  cases c <;> rfl

/-- Settles O40: the rows lie below 0x1000 or there are none, or the reads fault. -/
theorem drawInstructionDrawsAndSetsVF : Obligations.DrawInstructionDrawsAndSetsVF := by
  intro x y n s
  have hbase : s.base = s.i.toNat := rfl
  refine ⟨fun h => ⟨_, withAccess_ok (memReads_ok_of_zero_or_le s.mem ?_), ?_, fun r hr => ?_, movesPc_two rfl,
    by simp [changesOnly_iff]⟩, fun hn h => ⟨?_, rfl⟩⟩
  · exact h.imp_right (by omega)
  · rintro _ rfl
    exact ⟨rfl, (congrArg BitVec.toNat (State.reg_setReg_self ..)).trans (toNat_flagOf _)⟩
  · exact (State.reg_setReg ..).trans (if_neg hr)
  · exact withAccess_error (memReads_error s.mem (by omega) (by omega))

end Sys2Proof.Machine
end

