-- ==== Sys2Proof/Proofs/Encoding.lean ====
section
/-! PROOF. The statements about the encoding (30_encoding.md). The opcode map is written out once as a relation between words and
instructions; the decoder reads exactly this relation, and each statement is a fact about its rows. -/

namespace Sys2Proof

/-! ### The opcode map as a relation (R75) -/

/-- The word has the pattern of the instruction's row of the opcode map, and its fields are the instruction's operands (R71, R75,
R76): first the selectors, then the fields. -/
inductive OpcodeRow (w : Word) : Instr → Prop
  | sys {nnn} : bits w 15 12 = 0x0 → w ≠ 0x00E0#16 → w ≠ 0x00EE#16 → fieldNNN w = nnn → OpcodeRow w (.sys nnn)
  | cls : w = 0x00E0#16 → OpcodeRow w .cls
  | ret : w = 0x00EE#16 → OpcodeRow w .ret
  | jp {nnn} : bits w 15 12 = 0x1 → fieldNNN w = nnn → OpcodeRow w (.jp nnn)
  | call {nnn} : bits w 15 12 = 0x2 → fieldNNN w = nnn → OpcodeRow w (.call nnn)
  | seImm {x kk} : bits w 15 12 = 0x3 → fieldX w = x → fieldKK w = kk → OpcodeRow w (.seImm x kk)
  | sneImm {x kk} : bits w 15 12 = 0x4 → fieldX w = x → fieldKK w = kk → OpcodeRow w (.sneImm x kk)
  | seReg {x y} : bits w 15 12 = 0x5 → fieldX w = x → fieldY w = y → OpcodeRow w (.seReg x y)
  | ldImm {x kk} : bits w 15 12 = 0x6 → fieldX w = x → fieldKK w = kk → OpcodeRow w (.ldImm x kk)
  | addImm {x kk} : bits w 15 12 = 0x7 → fieldX w = x → fieldKK w = kk → OpcodeRow w (.addImm x kk)
  | ldReg {x y} : bits w 15 12 = 0x8 → bits w 3 0 = 0x0 → fieldX w = x → fieldY w = y → OpcodeRow w (.ldReg x y)
  | or {x y} : bits w 15 12 = 0x8 → bits w 3 0 = 0x1 → fieldX w = x → fieldY w = y → OpcodeRow w (.or x y)
  | and {x y} : bits w 15 12 = 0x8 → bits w 3 0 = 0x2 → fieldX w = x → fieldY w = y → OpcodeRow w (.and x y)
  | xor {x y} : bits w 15 12 = 0x8 → bits w 3 0 = 0x3 → fieldX w = x → fieldY w = y → OpcodeRow w (.xor x y)
  | addReg {x y} : bits w 15 12 = 0x8 → bits w 3 0 = 0x4 → fieldX w = x → fieldY w = y → OpcodeRow w (.addReg x y)
  | sub {x y} : bits w 15 12 = 0x8 → bits w 3 0 = 0x5 → fieldX w = x → fieldY w = y → OpcodeRow w (.sub x y)
  | shr {x y} : bits w 15 12 = 0x8 → bits w 3 0 = 0x6 → fieldX w = x → fieldY w = y → OpcodeRow w (.shr x y)
  | subn {x y} : bits w 15 12 = 0x8 → bits w 3 0 = 0x7 → fieldX w = x → fieldY w = y → OpcodeRow w (.subn x y)
  | shl {x y} : bits w 15 12 = 0x8 → bits w 3 0 = 0xE → fieldX w = x → fieldY w = y → OpcodeRow w (.shl x y)
  | sneReg {x y} : bits w 15 12 = 0x9 → fieldX w = x → fieldY w = y → OpcodeRow w (.sneReg x y)
  | ldI {nnn} : bits w 15 12 = 0xA → fieldNNN w = nnn → OpcodeRow w (.ldI nnn)
  | jpV0 {nnn} : bits w 15 12 = 0xB → fieldNNN w = nnn → OpcodeRow w (.jpV0 nnn)
  | rnd {x kk} : bits w 15 12 = 0xC → fieldX w = x → fieldKK w = kk → OpcodeRow w (.rnd x kk)
  | drw {x y n} : bits w 15 12 = 0xD → fieldX w = x → fieldY w = y → fieldN w = n → OpcodeRow w (.drw x y n)
  | skp {x} : bits w 15 12 = 0xE → bits w 7 0 = 0x9E → fieldX w = x → OpcodeRow w (.skp x)
  | sknp {x} : bits w 15 12 = 0xE → bits w 7 0 = 0xA1 → fieldX w = x → OpcodeRow w (.sknp x)
  | ldVxDt {x} : bits w 15 12 = 0xF → bits w 7 0 = 0x07 → fieldX w = x → OpcodeRow w (.ldVxDt x)
  | ldVxK {x} : bits w 15 12 = 0xF → bits w 7 0 = 0x0A → fieldX w = x → OpcodeRow w (.ldVxK x)
  | ldDtVx {x} : bits w 15 12 = 0xF → bits w 7 0 = 0x15 → fieldX w = x → OpcodeRow w (.ldDtVx x)
  | ldStVx {x} : bits w 15 12 = 0xF → bits w 7 0 = 0x18 → fieldX w = x → OpcodeRow w (.ldStVx x)
  | addI {x} : bits w 15 12 = 0xF → bits w 7 0 = 0x1E → fieldX w = x → OpcodeRow w (.addI x)
  | ldF {x} : bits w 15 12 = 0xF → bits w 7 0 = 0x29 → fieldX w = x → OpcodeRow w (.ldF x)
  | ldB {x} : bits w 15 12 = 0xF → bits w 7 0 = 0x33 → fieldX w = x → OpcodeRow w (.ldB x)
  | ldMemVx {x} : bits w 15 12 = 0xF → bits w 7 0 = 0x55 → fieldX w = x → OpcodeRow w (.ldMemVx x)
  | ldVxMem {x} : bits w 15 12 = 0xF → bits w 7 0 = 0x65 → fieldX w = x → OpcodeRow w (.ldVxMem x)

/-! ### The decoder reads the opcode map (R74, R76 to R78) -/

section
variable {w : Word} {i : Instr}

theorem opcodeRow_decodeFamily0 (hf : bits w 15 12 = 0x0) : OpcodeRow w (decodeFamily0 w) := by
  unfold decodeFamily0
  split
  · exact .cls ‹_›
  · split
    · exact .ret ‹_›
    · exact .sys hf ‹_› ‹_› rfl

theorem opcodeRow_of_decodeFamily8 (hf : bits w 15 12 = 0x8) (h : decodeFamily8 w = .ok i) : OpcodeRow w i := by
  unfold decodeFamily8 at h
  split at h <;> cases h
  · exact .ldReg hf ‹_› rfl rfl
  · exact .or hf ‹_› rfl rfl
  · exact .and hf ‹_› rfl rfl
  · exact .xor hf ‹_› rfl rfl
  · exact .addReg hf ‹_› rfl rfl
  · exact .sub hf ‹_› rfl rfl
  · exact .shr hf ‹_› rfl rfl
  · exact .subn hf ‹_› rfl rfl
  · exact .shl hf ‹_› rfl rfl

theorem opcodeRow_of_decodeFamilyE (hf : bits w 15 12 = 0xE) (h : decodeFamilyE w = .ok i) : OpcodeRow w i := by
  unfold decodeFamilyE at h
  split at h <;> cases h
  · exact .skp hf ‹_› rfl
  · exact .sknp hf ‹_› rfl

theorem opcodeRow_of_decodeFamilyF (hf : bits w 15 12 = 0xF) (h : decodeFamilyF w = .ok i) : OpcodeRow w i := by
  unfold decodeFamilyF at h
  split at h <;> cases h
  · exact .ldVxDt hf ‹_› rfl
  · exact .ldVxK hf ‹_› rfl
  · exact .ldDtVx hf ‹_› rfl
  · exact .ldStVx hf ‹_› rfl
  · exact .addI hf ‹_› rfl
  · exact .ldF hf ‹_› rfl
  · exact .ldB hf ‹_› rfl
  · exact .ldMemVx hf ‹_› rfl
  · exact .ldVxMem hf ‹_› rfl

/-- The decoder gives only the instructions of the rows that select the word. -/
theorem opcodeRow_of_decodeWord (h : decodeWord w = .ok i) : OpcodeRow w i := by
  unfold decodeWord at h
  split at h
  case h_1 hf => cases h; exact opcodeRow_decodeFamily0 hf
  case h_9 hf => exact opcodeRow_of_decodeFamily8 hf h
  case h_15 hf => exact opcodeRow_of_decodeFamilyE hf h
  case h_16 hf => exact opcodeRow_of_decodeFamilyF hf h
  all_goals cases h
  · exact .jp ‹_› rfl
  · exact .call ‹_› rfl
  · exact .seImm ‹_› rfl rfl
  · exact .sneImm ‹_› rfl rfl
  · exact .seReg ‹_› rfl rfl
  · exact .ldImm ‹_› rfl rfl
  · exact .addImm ‹_› rfl rfl
  · exact .sneReg ‹_› rfl rfl
  · exact .ldI ‹_› rfl
  · exact .jpV0 ‹_› rfl
  · exact .rnd ‹_› rfl rfl
  · exact .drw ‹_› rfl rfl rfl

/-- The decoder gives the instruction of every row that selects the word. -/
theorem OpcodeRow.decodeWord_eq (h : OpcodeRow w i) : decodeWord w = .ok i := by
  cases h with
  | cls hw | ret hw => rw [hw]; rfl
  | sys hf hcls hret hn => simp only [decodeWord, decodeFamily0, hf, hcls, hret, hn, if_false]
  | jp hf hn | call hf hn | ldI hf hn | jpV0 hf hn => simp only [decodeWord, hf, hn]
  | seImm hf hx hk | sneImm hf hx hk | ldImm hf hx hk | addImm hf hx hk | rnd hf hx hk =>
    simp only [decodeWord, hf, hx, hk]
  | seReg hf hx hy | sneReg hf hx hy => simp only [decodeWord, hf, hx, hy]
  | drw hf hx hy hn => simp only [decodeWord, hf, hx, hy, hn]
  | ldReg hf hs hx hy | or hf hs hx hy | and hf hs hx hy | xor hf hs hx hy | addReg hf hs hx hy | sub hf hs hx hy
  | shr hf hs hx hy | subn hf hs hx hy | shl hf hs hx hy =>
    simp only [decodeWord, decodeFamily8, hf, hs, hx, hy]
  | skp hf hs hx | sknp hf hs hx => simp only [decodeWord, decodeFamilyE, hf, hs, hx]
  | ldVxDt hf hs hx | ldVxK hf hs hx | ldDtVx hf hs hx | ldStVx hf hs hx | addI hf hs hx | ldF hf hs hx | ldB hf hs hx
  | ldMemVx hf hs hx | ldVxMem hf hs hx => simp only [decodeWord, decodeFamilyF, hf, hs, hx]

theorem decodeWord_eq_ok_iff : decodeWord w = .ok i ↔ OpcodeRow w i :=
  ⟨opcodeRow_of_decodeWord, OpcodeRow.decodeWord_eq⟩

/-- No word is selected by the rows of two instructions. -/
theorem OpcodeRow.unique {j : Instr} (hi : OpcodeRow w i) (hj : OpcodeRow w j) : i = j :=
  Except.ok.inj (hi.decodeWord_eq.symm.trans hj.decodeWord_eq)

end

/-! ### The encoder writes the opcode map (R75, R81) -/

theorem formatA_ne_of_nnn_ne {o : Nat} {nnn : Addr12} {w : Word} (h : nnn ≠ fieldNNN w) : formatA o nnn ≠ w := by
  rintro rfl
  exact h (formatA_nnn o nnn).symm

theorem fieldN_formatXY (o : Nat) (x y : Reg) (n : Nibble) : fieldN (formatXY o x y n.toNat) = n := by
  rw [fieldN, formatXY_low o x y n.isLt, BitVec.ofNat_toNat, BitVec.setWidth_eq]

theorem sysAddrOk_iff (nnn : Addr12) : sysAddrOk nnn = true ↔ nnn ≠ 0x0E0#12 ∧ nnn ≠ 0x0EE#12 := by
  simp only [sysAddrOk, Bool.and_eq_true, bne_iff_ne]

/-- The word of a well-formed instruction is selected by the instruction's own row, and carries its operands: the goals of each
row are the laws of its format. -/
theorem opcodeRow_encodeWord {i : Instr} (h : i.wellFormed = true) : OpcodeRow (encodeWord i) i := by
  cases i with
  | cls => exact .cls rfl
  | ret => exact .ret rfl
  | sys nnn =>
    obtain ⟨hcls, hret⟩ := (sysAddrOk_iff nnn).1 h
    exact .sys (formatA_family nnn (by decide)) (formatA_ne_of_nnn_ne hcls) (formatA_ne_of_nnn_ne hret) (formatA_nnn _ nnn)
  | jp nnn | call nnn | ldI nnn | jpV0 nnn =>
    constructor
    · exact formatA_family nnn (by decide)
    · exact formatA_nnn _ nnn
  | seImm x kk | sneImm x kk | ldImm x kk | addImm x kk | rnd x kk =>
    constructor
    · exact formatXK_family x kk (by decide)
    · exact formatXK_x _ x kk
    · exact formatXK_kk _ x kk
  | seReg x y | sneReg x y =>
    constructor
    · exact formatXY_family x y (by decide) (by decide)
    · exact formatXY_x _ x y (by decide)
    · exact formatXY_y _ x y (by decide)
  | ldReg x y | or x y | and x y | xor x y | addReg x y | sub x y | shr x y | subn x y | shl x y =>
    constructor
    · exact formatXY_family x y (by decide) (by decide)
    · exact formatXY_low _ x y (by decide)
    · exact formatXY_x _ x y (by decide)
    · exact formatXY_y _ x y (by decide)
  | drw x y n =>
    exact .drw (formatXY_family x y (by decide) n.isLt) (formatXY_x _ x y n.isLt) (formatXY_y _ x y n.isLt)
      (fieldN_formatXY _ x y n)
  | skp x | sknp x | ldVxDt x | ldVxK x | ldDtVx x | ldStVx x | addI x | ldF x | ldB x | ldMemVx x | ldVxMem x =>
    constructor
    · exact formatX_family x (by decide) (by decide)
    · exact formatX_low _ x (by decide)
    · exact formatX_x _ x (by decide)

/-- Settles O2: the decoder reads the row that the encoder wrote. -/
theorem decodingAnEncodedInstructionGivesItBack : Obligations.DecodingAnEncodedInstructionGivesItBack := by
  intro i rest h
  have hw : decodeWord (encodeWord i) = .ok i := (opcodeRow_encodeWord h).decodeWord_eq
  refine ⟨hw, ?_⟩
  rw [encode, decode_bytesOfWord, hw]
  rfl

/-! ### A format rebuilds the word from its fields (R72) -/

section
variable {w : Word} {o : Nat} {x y : Reg}

theorem formatA_eq {nnn : Addr12} (hf : bits w 15 12 = o) (hn : fieldNNN w = nnn) : formatA o nnn = w := by
  subst hf hn
  apply BitVec.eq_of_toNat_eq
  simp only [formatA, fieldNNN, bits, BitVec.toNat_ofNat]
  omega

theorem formatXK_eq {kk : Byte} (hf : bits w 15 12 = o) (hx : fieldX w = x) (hk : fieldKK w = kk) :
    formatXK o x kk = w := by
  subst hf hx hk
  apply BitVec.eq_of_toNat_eq
  simp only [formatXK, fieldX, fieldKK, bits, BitVec.toNat_ofNat, Fin.val_ofNat]
  omega

/-- With any nibble `s` at the end: the upper three nibbles are the word's own. -/
theorem formatXY_toNat {s : Nat} (hf : bits w 15 12 = o) (hx : fieldX w = x) (hy : fieldY w = y) (hs : s < 16) :
    (formatXY o x y s).toNat = w.toNat / 16 * 16 + s := by
  have := w.isLt
  subst hf hx hy
  simp only [formatXY, fieldX, fieldY, bits, BitVec.toNat_ofNat, Fin.val_ofNat]
  omega

theorem formatXY_eq {s : Nat} (hf : bits w 15 12 = o) (hs : bits w 3 0 = s) (hx : fieldX w = x) (hy : fieldY w = y) :
    formatXY o x y s = w := by
  subst hs
  apply BitVec.eq_of_toNat_eq
  rw [formatXY_toNat hf hx hy (bits_lt w 3 0)]
  simp only [bits]
  omega

theorem formatX_eq {ss : Nat} (hf : bits w 15 12 = o) (hs : bits w 7 0 = ss) (hx : fieldX w = x) : formatX o x ss = w := by
  subst hf hs hx
  apply BitVec.eq_of_toNat_eq
  simp only [formatX, fieldX, bits, BitVec.toNat_ofNat, Fin.val_ofNat]
  omega

end

/-! ### Encoding what was decoded (R80, R81) -/

section
variable {w : Word} {i : Instr}

theorem bits_low_eq_toNat_fieldN (w : Word) : bits w 3 0 = (fieldN w).toNat := by
  rw [fieldN, BitVec.toNat_ofNat, Nat.mod_eq_of_lt (bits_lt w 3 0)]

theorem OpcodeRow.wellFormed (h : OpcodeRow w i) : i.wellFormed = true := by
  cases h with
  | @sys nnn hf hcls hret hn =>
    have hw : formatA 0x0 nnn = w := formatA_eq hf hn
    refine (sysAddrOk_iff nnn).2 ⟨?_, ?_⟩
    · rintro rfl
      exact hcls hw.symm
    · rintro rfl
      exact hret hw.symm
  | _ => rfl

/-- The encoder gives the word back where the decoder ignores no bit of it. -/
theorem OpcodeRow.encodeWord_eq (h : OpcodeRow w i) (hf59 : ¬ (bits w 15 12 = 0x5 ∨ bits w 15 12 = 0x9)) :
    encodeWord i = w := by
  cases h with
  | cls hw | ret hw => exact hw.symm
  | seReg hf => exact absurd (.inl hf) hf59
  | sneReg hf => exact absurd (.inr hf) hf59
  | sys hf _ _ hn | jp hf hn | call hf hn | ldI hf hn | jpV0 hf hn => exact formatA_eq hf hn
  | seImm hf hx hk | sneImm hf hx hk | ldImm hf hx hk | addImm hf hx hk | rnd hf hx hk => exact formatXK_eq hf hx hk
  | ldReg hf hs hx hy | or hf hs hx hy | and hf hs hx hy | xor hf hs hx hy | addReg hf hs hx hy | sub hf hs hx hy
  | shr hf hs hx hy | subn hf hs hx hy | shl hf hs hx hy => exact formatXY_eq hf hs hx hy
  | drw hf hx hy hn => exact formatXY_eq hf (hn ▸ bits_low_eq_toNat_fieldN w) hx hy
  | skp hf hs hx | sknp hf hs hx | ldVxDt hf hs hx | ldVxK hf hs hx | ldDtVx hf hs hx | ldStVx hf hs hx | addI hf hs hx
  | ldF hf hs hx | ldB hf hs hx | ldMemVx hf hs hx | ldVxMem hf hs hx => exact formatX_eq hf hs hx

/-- In families 5 and 9 the encoder writes the ignored nibble as 0. -/
theorem OpcodeRow.toNat_encodeWord (h : OpcodeRow w i) (hf59 : bits w 15 12 = 0x5 ∨ bits w 15 12 = 0x9) :
    (encodeWord i).toNat = w.toNat / 16 * 16 := by
  rcases hf59 with hf | hf
  · obtain rfl := h.unique (.seReg hf rfl rfl)
    rw [encodeWord, formatXY_toNat hf rfl rfl (by decide), Nat.add_zero]
  · obtain rfl := h.unique (.sneReg hf rfl rfl)
    rw [encodeWord, formatXY_toNat hf rfl rfl (by decide), Nat.add_zero]

end

/-- Settles O3: the three parts are facts about the row the decoder read. -/
theorem encodingADecodedWordGivesItBack : Obligations.EncodingADecodedWordGivesItBack := by
  intro w i h
  have hrow : OpcodeRow w i := decodeWord_eq_ok_iff.1 h
  exact ⟨hrow.wellFormed, hrow.toNat_encodeWord, hrow.encodeWord_eq⟩

/-! ### Masks and matches (R75) -/

/-- Masking keeps the bits where the mask is all ones. -/
theorem bits_and {m : Word} {hi lo : Nat} (w : Word) (hm : bits m hi lo = 2 ^ (hi - lo + 1) - 1) :
    bits (w &&& m) hi lo = bits w hi lo := by
  simp only [bits, BitVec.toNat_and, ← Nat.shiftRight_eq_div_pow] at hm ⊢
  rw [Nat.shiftRight_and_distrib, Nat.and_mod_two_pow, hm, Nat.and_two_pow_sub_one_eq_mod, Nat.mod_mod]

/-- A selector of a word that a row's mask and match select is the match's own. -/
theorem bits_of_match {w m v : Word} {hi lo k : Nat} (h : w &&& m = v) (hm : bits m hi lo = 2 ^ (hi - lo + 1) - 1)
    (hv : bits v hi lo = k) : bits w hi lo = k := by
  rw [← hv, ← h, bits_and w hm]

theorem eq_of_full_mask {w v : Word} (h : w &&& 0xFFFF#16 = v) : w = v :=
  BitVec.and_allOnes.symm.trans h

/-- Settles O4: each row's mask covers its selectors. -/
theorem everyOpcodeRowSelectsItsInstruction : Obligations.EveryOpcodeRowSelectsItsInstruction := by
  intro w
  simp only [decodeWord_eq_ok_iff]
  exact ⟨fun h hcls hret => .sys (bits_of_match h rfl rfl) hcls hret rfl,
    fun h => .cls (eq_of_full_mask h),
    fun h => .ret (eq_of_full_mask h),
    fun h => .jp (bits_of_match h rfl rfl) rfl,
    fun h => .call (bits_of_match h rfl rfl) rfl,
    fun h => .seImm (bits_of_match h rfl rfl) rfl rfl,
    fun h => .sneImm (bits_of_match h rfl rfl) rfl rfl,
    fun h => .seReg (bits_of_match h rfl rfl) rfl rfl,
    fun h => .ldImm (bits_of_match h rfl rfl) rfl rfl,
    fun h => .addImm (bits_of_match h rfl rfl) rfl rfl,
    fun h => .ldReg (bits_of_match h rfl rfl) (bits_of_match h rfl rfl) rfl rfl,
    fun h => .or (bits_of_match h rfl rfl) (bits_of_match h rfl rfl) rfl rfl,
    fun h => .and (bits_of_match h rfl rfl) (bits_of_match h rfl rfl) rfl rfl,
    fun h => .xor (bits_of_match h rfl rfl) (bits_of_match h rfl rfl) rfl rfl,
    fun h => .addReg (bits_of_match h rfl rfl) (bits_of_match h rfl rfl) rfl rfl,
    fun h => .sub (bits_of_match h rfl rfl) (bits_of_match h rfl rfl) rfl rfl,
    fun h => .shr (bits_of_match h rfl rfl) (bits_of_match h rfl rfl) rfl rfl,
    fun h => .subn (bits_of_match h rfl rfl) (bits_of_match h rfl rfl) rfl rfl,
    fun h => .shl (bits_of_match h rfl rfl) (bits_of_match h rfl rfl) rfl rfl,
    fun h => .sneReg (bits_of_match h rfl rfl) rfl rfl,
    fun h => .ldI (bits_of_match h rfl rfl) rfl,
    fun h => .jpV0 (bits_of_match h rfl rfl) rfl,
    fun h => .rnd (bits_of_match h rfl rfl) rfl rfl,
    fun h => .drw (bits_of_match h rfl rfl) rfl rfl rfl,
    fun h => .skp (bits_of_match h rfl rfl) (bits_of_match h rfl rfl) rfl,
    fun h => .sknp (bits_of_match h rfl rfl) (bits_of_match h rfl rfl) rfl,
    fun h => .ldVxDt (bits_of_match h rfl rfl) (bits_of_match h rfl rfl) rfl,
    fun h => .ldVxK (bits_of_match h rfl rfl) (bits_of_match h rfl rfl) rfl,
    fun h => .ldDtVx (bits_of_match h rfl rfl) (bits_of_match h rfl rfl) rfl,
    fun h => .ldStVx (bits_of_match h rfl rfl) (bits_of_match h rfl rfl) rfl,
    fun h => .addI (bits_of_match h rfl rfl) (bits_of_match h rfl rfl) rfl,
    fun h => .ldF (bits_of_match h rfl rfl) (bits_of_match h rfl rfl) rfl,
    fun h => .ldB (bits_of_match h rfl rfl) (bits_of_match h rfl rfl) rfl,
    fun h => .ldMemVx (bits_of_match h rfl rfl) (bits_of_match h rfl rfl) rfl,
    fun h => .ldVxMem (bits_of_match h rfl rfl) (bits_of_match h rfl rfl) rfl⟩

/-! ### Words without a tag (R77 to R79) -/

theorem decodeFamily8_eq_error_iff (w : Word) :
    decodeFamily8 w = .error .noMatch ↔ bits w 3 0 ∈ [0x8, 0x9, 0xA, 0xB, 0xC, 0xD, 0xF] := by
  have hlt : bits w 3 0 < 16 := bits_lt w 3 0
  unfold decodeFamily8
  split
  case h_10 =>
    simp only [imp_false, List.mem_cons, List.not_mem_nil, or_false, true_iff] at *
    omega
  all_goals simp [*]

theorem decodeFamilyE_eq_error_iff (w : Word) : decodeFamilyE w = .error .noMatch ↔ bits w 7 0 ∉ [0x9E, 0xA1] := by
  unfold decodeFamilyE
  split <;> simp_all

theorem decodeFamilyF_eq_error_iff (w : Word) : decodeFamilyF w = .error .noMatch ↔
    bits w 7 0 ∉ [0x07, 0x0A, 0x15, 0x18, 0x1E, 0x29, 0x33, 0x55, 0x65] := by
  unfold decodeFamilyF
  split <;> simp_all

/-- Settles O5: only families 8, E and F have a second selector, and each lists the values it has. -/
theorem exactlyTheIllegalWordsHaveNoTag : Obligations.ExactlyTheIllegalWordsHaveNoTag := by
  intro w
  have hlt := family_lt w
  rw [← decodeFamily8_eq_error_iff, ← decodeFamilyE_eq_error_iff, ← decodeFamilyF_eq_error_iff]
  unfold decodeWord
  split
  case h_17 =>
    simp only [imp_false] at *
    omega
  all_goals simp [*]

/-! ### Words written out (R71, R74) -/

/-- Settles O1: the decoder evaluates. -/
theorem specWordsDecodeToTheirInstructions : Obligations.SpecWordsDecodeToTheirInstructions :=
  ⟨rfl, rfl, rfl, rfl, rfl, rfl, rfl, rfl, rfl, rfl, rfl, rfl, rfl, rfl, rfl⟩

/-! ### The ignored bits (R80) -/

section
variable {w w' : Word} (h : bits w' 15 4 = bits w 15 4)
include h

theorem family_eq_of_upper_eq : bits w' 15 12 = bits w 15 12 := by
  simp only [bits] at h ⊢
  omega

theorem fieldX_eq_of_upper_eq : fieldX w' = fieldX w := by
  have hx : bits w' 11 8 = bits w 11 8 := by
    simp only [bits] at h ⊢
    omega
  rw [fieldX, hx, fieldX]

theorem fieldY_eq_of_upper_eq : fieldY w' = fieldY w := by
  have hy : bits w' 7 4 = bits w 7 4 := by
    simp only [bits] at h ⊢
    omega
  rw [fieldY, hy, fieldY]

/-- The rows of families 5 and 9 read the upper three nibbles only. -/
theorem decodeWord_eq_of_upper_eq (hf59 : bits w 15 12 = 0x5 ∨ bits w 15 12 = 0x9) : decodeWord w' = decodeWord w := by
  have hx := fieldX_eq_of_upper_eq h
  have hy := fieldY_eq_of_upper_eq h
  have hf' := family_eq_of_upper_eq h
  rcases hf59 with hf | hf
  · rw [(OpcodeRow.seReg (hf'.trans hf) hx hy).decodeWord_eq, (OpcodeRow.seReg hf rfl rfl).decodeWord_eq]
  · rw [(OpcodeRow.sneReg (hf'.trans hf) hx hy).decodeWord_eq, (OpcodeRow.sneReg hf rfl rfl).decodeWord_eq]

end

/-- Settles O6: SYS, SHR and SHL execute without the operand they ignore. -/
theorem ignoredBitsHaveNoEffect : Obligations.IgnoredBitsHaveNoEffect :=
  ⟨fun _ _ _ => rfl, fun _ _ hf59 h => decodeWord_eq_of_upper_eq h hf59, fun _ _ _ _ => ⟨rfl, rfl⟩⟩

end Sys2Proof
end

