-- ==== Sys2Proof/Proofs/Cycle.lean ====
section
/-! PROOF. The statements about the instruction cycle (40_cycle.md): what a Step does with the word at PC, the two faults before an
instruction, the Step of a faulted machine, and the frame rule. -/

namespace Sys2Proof.Machine

/-! ### The branches of a Step, in the order of its checks (R100, R107) -/

theorem engineStep_of_latched {s : State} {r : FaultRecord} (hlatch : s.fault = some r) :
    engineStep s = .fault (.halted r) := by
  simp only [engineStep, hlatch]

theorem engineStep_of_fetch_error {s : State} {e : Nat} (hrun : s.running) (hfetch : fetch s.mem s.pc = .error e) :
    engineStep s = .next (s.beginStep.raise .addressFault none (some e)) := by
  simp only [engineStep, hrun, hfetch]

theorem engineStep_of_fetch_ok {s : State} {w : Word} (hrun : s.running) (hfetch : fetch s.mem s.pc = .ok w) :
    engineStep s = runWord w s.beginStep := by
  simp only [engineStep, hrun, hfetch]

theorem runWord_of_decode_ok {w : Word} {i : Instr} (h : decodeWord w = .ok i) (s : State) : runWord w s = exec i s := by
  simp only [runWord, h]

theorem runWord_of_decode_error {w : Word} {e : Reject} (h : decodeWord w = .error e) (s : State) :
    runWord w s = .next (s.raise .decodeFault (some w) (some w.toNat)) := by
  simp only [runWord, h]

/-! ### The word at PC (R70, R101) -/

/-- Taking an action off the list or the schedule leaves the machine running. -/
theorem State.running_taken {s : State} (hrun : s.running) : s.taken.running := s.taken_fault.trans hrun

/-- With the latch clear and PC within reach, a Step runs the word at PC (R100, R101). -/
theorem step_runs_nextWord {s : State} (hrun : s.running) (hdue : s.stepsNext) (hpc : s.pc.toNat ≤ 0xFFE) :
    step s = runWord s.nextWord s.taken.beginStep := by
  have hfetch : fetch s.taken.mem s.taken.pc = .ok s.nextWord := by
    rw [State.taken_mem, State.taken_pc]
    exact fetch_ok _ _ (Nat.lt_succ_of_le hpc)
  exact (step_due hdue).trans (engineStep_of_fetch_ok (State.running_taken hrun) hfetch)

/-- Two bytes that decode to an instruction make a word that does (R70, R74). -/
theorem decodeWord_of_decode {hi lo : Byte} {rest : List Byte} {i : Instr} (h : decode (hi :: lo :: rest) = .ok (i, rest)) :
    decodeWord (wordOfBytes hi lo) = .ok i := by
  rw [decode] at h
  cases hw : decodeWord (wordOfBytes hi lo) with
  | error e => rw [hw] at h; cases h
  | ok j => rw [hw] at h; cases h; rfl

/-- Settles O8: the word of the two bytes at PC is the one that the Step runs. -/
theorem stepRunsTheFetchedInstruction : Obligations.StepRunsTheFetchedInstruction := by
  intro s i rest hrun hdue hpc hdecode
  have hword : decodeWord s.nextWord = .ok i := decodeWord_of_decode hdecode
  exact (step_runs_nextWord hrun hdue hpc).trans (runWord_of_decode_ok hword _)

/-! ### The Steps that fault before an instruction (R106, R222 to R224) -/

/-- A Step that raises a fault before an instruction latches the record and nothing else (R221, R222; logs 4, 16). -/
theorem State.raise_taken_beginStep (s : State) (c : Cause) (opcode : Option Word) (info : Option Nat) :
    s.taken.beginStep.raise c opcode info = ({ s.taken with started := true } : State).latch ⟨c, opcode, s.pc, info⟩ := by
  have hrecord : s.taken.faultRecord c opcode info = ⟨c, opcode, s.pc, info⟩ := by rw [faultRecord, taken_pc]
  exact (s.taken.raise_beginStep ..).trans (congrArg _ hrecord)

/-- Settles O9: the fetch reports the lowest address beyond memory, and the Step raises AddressFault with it. -/
theorem fetchBeyondMemoryLatchesAddressFault : Obligations.FetchBeyondMemoryLatchesAddressFault := by
  intro s hrun hdue hpc
  have hfetch : fetch s.taken.mem s.taken.pc = .error (max s.pc.toNat 0x1000) := by
    rw [State.taken_pc]
    exact fetch_error _ _ hpc
  refine ⟨rfl, ?_⟩
  rw [← State.raise_taken_beginStep]
  exact (step_due hdue).trans (engineStep_of_fetch_error (State.running_taken hrun) hfetch)

/-- Settles O11: the latch is the first check of a Step (R107). -/
theorem faultedMachineReportsItsRecord : Obligations.FaultedMachineReportsItsRecord := fun s _ hfault hdue =>
  (step_due hdue).trans (engineStep_of_latched (s.taken_fault.trans hfault))

/-- Settles O10: the Step raises DecodeFault, and the record it latches is what the next Step reports. -/
theorem illegalWordLatchesDecodeFaultAndHalts : Obligations.IllegalWordLatchesDecodeFaultAndHalts := by
  intro s hrun hdue hpc hword
  have hstep : step s = .next (s.taken.beginStep.raise .decodeFault (some s.nextWord) (some s.nextWord.toNat)) :=
    (step_runs_nextWord hrun hdue hpc).trans (runWord_of_decode_error hword _)
  rw [State.raise_taken_beginStep] at hstep
  exact ⟨_, _, rfl, rfl, hstep, rfl, faultedMachineReportsItsRecord _ _ rfl⟩

/-! ### The frame rule (R105) -/

theorem regsKeptBut_of_v_eq {changed : Reg → Prop} {s t : State} (h : t.v = s.v) : RegsKeptBut changed s t := fun _ _ => by
  rw [State.reg, h, State.reg]

theorem State.reg_setReg_of_ne {x r : Reg} (h : ¬ (r == x) = true) (s : State) (b : Byte) : (s.setReg x b).reg r = s.reg r :=
  (s.reg_setReg x r b).trans (if_neg (h ∘ beq_iff_eq.2))

theorem State.reg_setRegFlag_of_ne {x r : Reg} (h : ¬ (r == x || r == regF) = true) (s : State) (b f : Byte) :
    (s.setRegFlag x b f).reg r = s.reg r := by
  simp only [Bool.or_eq_true, not_or] at h
  exact (reg_setReg_of_ne h.2 _ f).trans (reg_setReg_of_ne h.1 s b)

/-- A group of reads that does not fault gives as many bytes as were asked for (R57). -/
theorem length_of_memReads {m : Memory} {a n : Nat} {bs : List Byte} (h : memReads m a n = .ok bs) : bs.length = n := by
  by_cases hn : n = 0 ∨ a + n ≤ 0x1000
  · cases (memReads_ok_of_zero_or_le m hn).symm.trans h
    simp
  · cases (memReads_error m (by omega) (by omega)).symm.trans h

/-- An access whose finish keeps a register keeps it, since a fault keeps them all (R222). -/
theorem withAccess_reg {α : Type} {i : Instr} {s t : State} {r : Except Nat α} {finish : α → State} {y : Reg}
    (h : withAccess i s r finish = .next t) (hfinish : ∀ a, r = .ok a → (finish a).reg y = s.reg y) : t.reg y = s.reg y := by
  rcases withAccess_cases i s r finish with ⟨a, ha, hok⟩ | ⟨e, _, hraise⟩
  · cases hok.symm.trans h
    exact hfinish a ha
  · cases hraise.symm.trans h
    rfl

/-- No instruction changes a register that its rule does not list, whether it completes, waits or faults (R20, R21, R105). -/
theorem exec_keeps_regs {i : Instr} {s t : State} (h : exec i s = .next t) :
    RegsKeptBut (fun r => i.mayWriteReg r = true) s t := by
  by_cases hv : Piece.v ∈ i.writes
  case neg => exact regsKeptBut_of_v_eq (exec_keeps (p := .v) h (by simpa using hv))
  intro r hr
  cases i with
  | ldImm x _ | addImm x _ | ldReg x _ | or x _ | and x _ | xor x _ | rnd x _ | ldVxDt x =>
    cases h
    exact State.reg_setReg_of_ne hr ..
  | addReg x _ | sub x _ | shr x _ | subn x _ | shl x _ =>
    cases h
    exact State.reg_setRegFlag_of_ne hr ..
  | ldVxK x =>
    rcases execLdVxK_cases x s with ⟨_, hkey⟩ | ⟨_, _, hkey⟩ | ⟨_, _, _, _, hkey⟩ <;> cases hkey.symm.trans h
    · rfl
    · exact State.reg_setReg_of_ne hr ..
    · exact State.reg_setReg_of_ne hr ..
  | drw _ _ _ => exact withAccess_reg h fun _ _ => State.reg_setReg_of_ne hr ..
  | ldVxMem x =>
    have hxr : x.val < r.val := by simpa [Instr.mayWriteReg] using hr
    refine withAccess_reg h fun bs hbs => loadRegs_outside s.v 0 bs r (.inr ?_)
    rwa [length_of_memReads hbs, Nat.zero_add]
  | _ => simp [Instr.writes] at hv

/-- An instruction that completes changes only the pieces its rule lists: the latch and the outcome are then as before (R105). -/
theorem changesOnly_of_exec {i : Instr} {s t : State} (h : exec i s = .next t) (hfault : t.fault = s.fault)
    (hout : t.out = s.out) : ChangesOnly i.writes s t := by
  intro p hp
  cases p with
  | fault => exact hfault
  | out => exact hout
  | _ => exact exec_keeps h (by simpa using hp)

/-- Settles O16: of the three ways an instruction ends, the statement sets the wait aside and a fault has set the latch. -/
theorem instructionChangesOnlyWhatItsRuleLists : Obligations.InstructionChangesOnlyWhatItsRuleLists := by
  intro i s t _ hexec hclear
  obtain ⟨_, ht, hends⟩ := exec_cases i s
  cases ht.symm.trans hexec
  rcases hends with ⟨hfault, hout, _⟩ | hwait | ⟨c, n, rfl⟩
  · exact .inr ⟨changesOnly_of_exec hexec hfault hout, exec_keeps_regs hexec, fun _ => exec_peek_outside hexec⟩
  · exact .inl hwait
  · cases hclear

end Sys2Proof.Machine
end

