-- ==== Sys2Proof/Proofs/Control.lean ====
section
/-! PROOF. The statements about control transfer (41_control.md): SYS, the jumps, the compare skips, a RET after a CALL, and the
invariant after reset. -/

namespace Sys2Proof.Machine

/-! ### Where PC goes (R104, R114 to R118) -/

/-- A skip passes over one instruction when its condition holds, and over none when it does not (R104, R114). -/
theorem movesPc_skipIf {n : Nat} {c : Bool} (s : State) (hn : n = if c then 4 else 2) : MovesPc n s (s.skipIf c) := by
  subst hn
  rw [MovesPc, State.skipIf_pc, BitVec.toNat_add]
  cases c <;> rfl

/-- The skip on equal bytes (R114, R116). -/
theorem movesPc_skipIf_beq (s : State) (a b : Byte) :
    MovesPc (if a.toNat = b.toNat then 4 else 2) s (s.skipIf (a == b)) :=
  movesPc_skipIf s (by simp only [beq_iff_eq, BitVec.toNat_inj])

/-- The skip on unequal bytes (R115, R117). -/
theorem movesPc_skipIf_bne (s : State) (a b : Byte) :
    MovesPc (if a.toNat = b.toNat then 2 else 4) s (s.skipIf (a != b)) :=
  movesPc_skipIf s (by simp only [bne_iff_ne, BitVec.toNat_inj, ne_eq, ite_not])

/-- The target of JP V0 fits in 16 bits (R118). -/
theorem toNat_add_reg_lt (nnn : Addr12) (b : Byte) : nnn.toNat + b.toNat < 65536 := by
  have hnnn := nnn.isLt
  have hb := b.isLt
  omega

/-! ### SYS, the jumps and the compare skips -/

/-- Settles O17: SYS is an instruction in sequence whose rule lists PC only. -/
theorem sysOnlyAdvancesPc : Obligations.SysOnlyAdvancesPc := fun nnn _ =>
  ⟨_, rfl, movesPc_two rfl, changesOnly_of_exec (i := .sys nnn) rfl rfl rfl⟩

/-- Settles O18: the target of JP is a 12-bit address, and the sum of JP V0 needs no reduction. -/
theorem jumpsCompleteAtTheirTargets : Obligations.JumpsCompleteAtTheirTargets := by
  intro nnn s
  have hsum := Nat.mod_eq_of_lt (toNat_add_reg_lt nnn (s.reg 0))
  have hpc := BitVec.toNat_ofNat (nnn.toNat + (s.reg 0).toNat) 16
  exact ⟨⟨_, rfl, toNat_immAddr nnn, changesOnly_of_exec (i := .jp nnn) rfl rfl rfl⟩,
    ⟨_, rfl, hpc, hpc.trans hsum, changesOnly_of_exec (i := .jpV0 nnn) rfl rfl rfl⟩⟩

/-- Settles O19: two skips on equal and two on unequal bytes, each of whose rules lists PC only. -/
theorem compareSkipsMovePcByTwoOrFour : Obligations.CompareSkipsMovePcByTwoOrFour := fun x y kk _ =>
  ⟨⟨_, rfl, movesPc_skipIf_beq .., changesOnly_of_exec (i := .seImm x kk) rfl rfl rfl⟩,
    ⟨_, rfl, movesPc_skipIf_bne .., changesOnly_of_exec (i := .sneImm x kk) rfl rfl rfl⟩,
    ⟨_, rfl, movesPc_skipIf_beq .., changesOnly_of_exec (i := .seReg x y) rfl rfl rfl⟩,
    ⟨_, rfl, movesPc_skipIf_bne .., changesOnly_of_exec (i := .sneReg x y) rfl rfl rfl⟩⟩

/-! ### A RET after a CALL (R111, R113) -/

/-- With SP below 15 there is a slot for the next CALL to write (R24, R113). -/
theorem exists_slot_above_sp {s : State} (h : s.sp ≠ 15) : ∃ k : Fin 16, (k.val : Int) = s.sp + 1 := by
  rw [State.sp] at h ⊢
  exact ⟨⟨s.depth.val, by omega⟩, (Int.sub_add_cancel ..).symm⟩

/-- Settles O22: the slot that CALL writes, at SP + 1, is the one that RET pops. -/
theorem returnResumesAfterTheCall : Obligations.ReturnResumesAfterTheCall := by
  intro nnn s t t' hsp hcall hsp' hstack
  obtain ⟨_, hcall', htop, hslots, _⟩ := (callPushesItsOwnAddress nnn s).1 hsp
  cases hcall'.symm.trans hcall
  obtain ⟨k, hk⟩ := exists_slot_above_sp hsp
  obtain ⟨u, hret, hpc, hspu, _⟩ := (returnPopsTheCallAddress t').1 k (by omega)
  refine ⟨u, hret, ?_, by omega⟩
  rw [MovesPc, hpc, hstack, hslots k, if_pos hk]

/-! ### The invariant after reset (R36, R221) -/

/-- Settles O59: memory lists nothing, PC is 0x200, no slot is live and nothing is latched. -/
theorem invariantHoldsAfterReset : Obligations.InvariantHoldsAfterReset where
  memory := wf_reset
  pcBound := show (0x200#16 : Word).toNat ≤ 0x10FE by decide
  liveSlots := nofun
  latchForm := nofun
  latchPc := nofun

end Sys2Proof.Machine
end

