-- ==== Sys2Proof/Proofs/Alu.lean ====
section
/-! PROOF. The statements about loads, arithmetic and logic (42_alu.md): first what each data result and flag is as a number, then
what a write of one register, or of a register and then VF, leaves in the state. -/

namespace Sys2Proof.Machine

/-! ### The data results and the flags as numbers (R132, R137 to R144) -/

theorem toNat_addData (a b : Byte) : (addData a b).toNat = (a.toNat + b.toNat) % 256 :=
  BitVec.toNat_ofNat ..

theorem toNat_addFlag (a b : Byte) : (addFlag a b).toNat = if a.toNat + b.toNat > 255 then 1 else 0 := by
  simp only [addFlag, toNat_flagOf, decide_eq_true_eq]

/-- The carry law (R138): with a carry the result is 256 less than the sum, hence below both operands; without one it is the sum,
hence below neither. -/
theorem add_carry_law (a b : Byte) :
    a.toNat + b.toNat = 256 * (addFlag a b).toNat + (addData a b).toNat ∧
    ((addFlag a b).toNat = 1 ↔ (addData a b).toNat < a.toNat) ∧
    ((addFlag a b).toNat = 1 ↔ (addData a b).toNat < b.toNat) := by
  have ha := a.isLt
  have hb := b.isLt
  rw [toNat_addData, toNat_addFlag]
  by_cases hcarry : a.toNat + b.toNat > 255
  · rw [if_pos hcarry]
    omega
  · rw [if_neg hcarry]
    omega

/-- The absolute difference of two bytes is a byte, so storing it reduces nothing (R140). -/
theorem toNat_subData_absdiff (a b : Byte) : ((subData .absdiff a b).toNat : Int) = |(a.toNat : Int) - (b.toNat : Int)| := by
  have hlt : ((a.toNat : Int) - (b.toNat : Int)).natAbs < 256 := by
    have ha := a.isLt
    have hb := b.isLt
    omega
  rw [subData, BitVec.toNat_ofNat, Nat.mod_eq_of_lt hlt, Int.natCast_natAbs]

theorem toNat_subFlag (a b : Byte) : (subFlag a b).toNat = if b.toNat > a.toNat then 0 else 1 := by
  simp only [subFlag, toNat_flagOf, Bool.not_eq_true', decide_eq_false_iff_not, ite_not]

theorem toNat_shrData (a : Byte) : (shrData a).toNat = a.toNat / 2 := by
  rw [shrData, BitVec.toNat_ushiftRight, Nat.shiftRight_one]

theorem toNat_shrFlag (a : Byte) : (shrFlag a).toNat = a.toNat % 2 := by
  rw [shrFlag, BitVec.toNat_and]
  exact Nat.and_one_is_mod _

theorem toNat_shlData (a : Byte) : (shlData a).toNat = a.toNat * 2 % 256 :=
  BitVec.toNat_ofNat ..

/-- Bit 7 is the byte's top bit, which is set from 128 on (R144). -/
theorem toNat_shlFlag (a : Byte) : (shlFlag a).toNat = if a.toNat ≥ 128 then 1 else 0 := by
  have hbit : a.getLsbD 7 = decide (a.toNat ≥ 128) := BitVec.msb_eq_decide a
  simp only [shlFlag, toNat_flagOf, hbit, decide_eq_true_eq]

/-! ### A write of one register, and of a register and then VF (R9, R105, R139) -/

theorem frame_setReg_advance (x : Reg) (b : Byte) (s : State) :
    RegsKeptBut (· = x) s (s.setReg x b).advance ∧ MovesPc 2 s (s.setReg x b).advance ∧
      ChangesOnly [.v, .pc] s (s.setReg x b).advance :=
  ⟨fun r hr => (s.reg_setReg x r b).trans (if_neg hr), movesPc_two rfl, by simp [changesOnly_iff]⟩

theorem frame_setRegFlag_advance (x : Reg) (b f : Byte) (s : State) :
    RegsKeptBut (fun r => r = x ∨ r = regF) s (s.setRegFlag x b f).advance ∧ MovesPc 2 s (s.setRegFlag x b f).advance ∧
      ChangesOnly [.v, .pc] s (s.setRegFlag x b f).advance := by
  refine ⟨fun r hr => ?_, movesPc_two rfl, by simp [changesOnly_iff]⟩
  rw [State.reg_advance, State.reg_setRegFlag, if_neg (hr ∘ .inr), if_neg (hr ∘ .inl)]

/-- VF is written last, so it holds the flag even where `x` names it (R139). -/
@[simp] theorem State.reg_setRegFlag_regF (x : Reg) (b f : Byte) (s : State) : (s.setRegFlag x b f).reg regF = f :=
  State.reg_setReg_self ..

theorem State.reg_setRegFlag_self {x : Reg} (hx : x ≠ regF) (b f : Byte) (s : State) : (s.setRegFlag x b f).reg x = b := by
  rw [State.reg_setRegFlag, if_neg hx, if_pos rfl]

/-! ### The statements -/

/-- Settles O25: the sum and its carry, of which the carry law speaks where the flag has not overwritten the sum. -/
theorem addRegisterSetsCarry : Obligations.AddRegisterSetsCarry := by
  intro x y s
  refine ⟨_, rfl, ?_, fun hx => ?_, frame_setRegFlag_advance ..⟩
  · rw [State.reg_advance, State.reg_setRegFlag_regF, toNat_addFlag]
  · rw [State.reg_advance, State.reg_advance, State.reg_setRegFlag_regF, State.reg_setRegFlag_self hx]
    exact ⟨toNat_addData .., add_carry_law ..⟩

/-- What SUB and SUBN share: of two operands, whichever way round, the absolute difference and NOT borrow (R140). -/
theorem exec_subtraction {i : Instr} {x : Reg} {a b : Byte} {s : State}
    (h : exec i s = .next (s.setRegFlag x (subData .absdiff a b) (subFlag a b)).advance) :
    ∃ t, exec i s = .next t ∧ (t.reg regF).toNat = (if b.toNat > a.toNat then 0 else 1) ∧
      (x ≠ regF → ((t.reg x).toNat : Int) = |(a.toNat : Int) - (b.toNat : Int)|) ∧
      RegsKeptBut (fun r => r = x ∨ r = regF) s t ∧ MovesPc 2 s t ∧ ChangesOnly [.v, .pc] s t := by
  refine ⟨_, h, ?_, fun hx => ?_, frame_setRegFlag_advance ..⟩
  · rw [State.reg_advance, State.reg_setRegFlag_regF, toNat_subFlag]
  · rw [State.reg_advance, State.reg_setRegFlag_self hx, toNat_subData_absdiff]

/-- Settles O26: SUBN is SUB with the operands exchanged. -/
theorem subtractionsStoreTheAbsoluteDifference : Obligations.SubtractionsStoreTheAbsoluteDifference := fun _ _ _ =>
  ⟨exec_subtraction rfl, exec_subtraction rfl⟩

/-- Settles O27: half or double the byte, and the bit shifted out, which VF keeps even where `x` names it. -/
theorem shiftsMoveOneBitIntoVF : Obligations.ShiftsMoveOneBitIntoVF := by
  intro x y s
  refine ⟨⟨_, rfl, ?_, fun hx => ?_, frame_setRegFlag_advance ..⟩, ⟨_, rfl, ?_, fun hx => ?_, frame_setRegFlag_advance ..⟩⟩
  · rw [State.reg_advance, State.reg_setRegFlag_regF, toNat_shrFlag]
  · rw [State.reg_advance, State.reg_setRegFlag_self hx, toNat_shrData]
  · rw [State.reg_advance, State.reg_setRegFlag_regF, toNat_shlFlag]
  · rw [State.reg_advance, State.reg_setRegFlag_self hx, toNat_shlData]

/-- Settles O23: three writes of `Vx` alone. -/
theorem movesAndImmediateAdd : Obligations.MovesAndImmediateAdd := by
  intro x y kk s
  refine ⟨⟨_, rfl, State.reg_setReg_self .., frame_setReg_advance ..⟩, ⟨_, rfl, ?_, frame_setReg_advance ..⟩,
    ⟨_, rfl, State.reg_setReg_self .., frame_setReg_advance ..⟩⟩
  rw [State.reg_advance, State.reg_setReg_self, toNat_addData]

/-- Settles O24: three writes of `Vx` alone, each of a bitwise result. -/
theorem logicWorksBitByBitWithoutFlag : Obligations.LogicWorksBitByBitWithoutFlag := by
  intro x y s
  refine ⟨⟨_, rfl, fun b => ?_, frame_setReg_advance ..⟩, ⟨_, rfl, fun b => ?_, frame_setReg_advance ..⟩,
    ⟨_, rfl, fun b => ?_, frame_setReg_advance ..⟩⟩
  · rw [State.reg_advance, State.reg_setReg_self, BitVec.getLsbD_or]
  · rw [State.reg_advance, State.reg_setReg_self, BitVec.getLsbD_and]
  · rw [State.reg_advance, State.reg_setReg_self, BitVec.getLsbD_xor]

end Sys2Proof.Machine
end

