-- ==== Sys2Proof/Proofs/Index.lean ====
section
/-! PROOF. The statements about the index register and the memory instructions (43_index_memory.md): the three writers of I, and a block
load after a block store. -/

namespace Sys2Proof.Machine

/-! ### A block load after a block store (R164 to R166) -/

/-- Settles O36: the store keeps I (D1), so the load reads the block that was stored. -/
theorem blockStoreThenLoadRestoresRegisters : Obligations.BlockStoreThenLoadRestoresRegisters := by
  intro x s v hm hfits
  obtain ⟨t, hstore, hstored, _, _, hkept⟩ := (blockStoreWritesV0ToVx x s hm).1 hfits
  have hi : t.i = s.i := hkept .i (by decide)
  obtain ⟨u, hload, hloaded, hregs, _⟩ := (blockLoadReadsV0ToVx x { t with v := v }).1 (hi ▸ hfits)
  refine ⟨t, u, hstore, hload, fun j => ?_⟩
  split
  next hj =>
    calc u.reg j = t.mem.peek (t.i.toNat + j.val) := hloaded j hj
      _ = t.mem.peek (s.i.toNat + j.val) := by rw [hi]
      _ = s.reg j := hstored j hj
  next hj => exact hregs j hj

/-! ### The writers of I (R160 to R162) -/

/-- Five times a byte fits in 16 bits (R162). -/
theorem toNat_mul_five_lt (b : Byte) : b.toNat * 5 < 65536 := by
  have hb := b.isLt
  omega

/-- Settles O30: the sum of ADD I is reduced to 16 bits, the other two values need no reduction, and each rule lists I and PC
only. -/
theorem indexRegisterWriters : Obligations.IndexRegisterWriters := fun x nnn s =>
  ⟨⟨_, rfl, toNat_immAddr nnn, movesPc_two rfl, changesOnly_of_exec (i := .ldI nnn) rfl rfl rfl⟩,
    ⟨_, rfl, BitVec.toNat_ofNat .., movesPc_two rfl, changesOnly_of_exec (i := .addI x) rfl rfl rfl⟩,
    ⟨_, rfl, (BitVec.toNat_ofNat ..).trans (Nat.mod_eq_of_lt (toNat_mul_five_lt (s.reg x))), movesPc_two rfl,
      changesOnly_of_exec (i := .ldF x) rfl rfl rfl⟩⟩

end Sys2Proof.Machine
end

