-- ==== Sys2Proof/Proofs/Display.lean ====
section
/-! PROOF. The statements about the framebuffer (44_display.md): CLS, and the closed form of `draw`, from which its laws follow. The
closed form is an XOR with the source bits; an induction over the sprite rows proves it, since a sprite never overlaps itself. -/

namespace Sys2Proof.Machine

/-- The source bit that lands on a cell, and 0 on the cells that the sprite does not cover: bit `7 - i` of row `j`, where `j` and
`i` are the cell's distances from the sprite's corner (R184). -/
def sourceBit (rows : List Byte) (vx vy : Nat) (r : Fin 32) (c : Fin 64) : Bool :=
  let j := (r.val + 32 - vy % 32) % 32
  let i := (c.val + 64 - vx % 64) % 64
  decide (j < rows.length ∧ i < 8) && (rows.getD j 0).getLsbD (7 - i)

section
variable {rows bs : List Byte} {b : Byte} {vx vy : Nat} {r : Fin 32} {c : Fin 64} {acc : Grid × Bool}

/-! ### Where the source bits land (R184) -/

theorem sourceBit_nil : sourceBit [] vx vy r c = false := by
  simp [sourceBit]

theorem sourceBit_eq_true : sourceBit rows vx vy r c = true ↔
    (r.val + 32 - vy % 32) % 32 < rows.length ∧ (c.val + 64 - vx % 64) % 64 < 8 ∧
      (rows.getD ((r.val + 32 - vy % 32) % 32) 0).getLsbD (7 - (c.val + 64 - vx % 64) % 64) = true := by
  simp only [sourceBit, Bool.and_eq_true, decide_eq_true_eq, and_assoc]

/-- Source bit `7 - i` of row `j` lands on the cell that lies `j` below and `i` to the right of the corner. -/
theorem sourceBit_ofNat {j i : Nat} (hj : j < rows.length) (hi : i < 8) (hlen : rows.length ≤ 32) :
    sourceBit rows vx vy (Fin.ofNat 32 (vy + j)) (Fin.ofNat 64 (vx + i)) = (rows.getD j 0).getLsbD (7 - i) := by
  have hrow : ((vy + j) % 32 + 32 - vy % 32) % 32 = j := by omega
  have hcol : ((vx + i) % 64 + 64 - vx % 64) % 64 = i := by omega
  simp [sourceBit, hrow, hcol, hj, hi]

/-- No self-overlap: on each cell, the first row or the later ones have no bit, and the sprite has the bit of the other (R184). -/
theorem sourceBit_cons_cases (b : Byte) (vx vy : Nat) (r : Fin 32) (c : Fin 64) (hlen : bs.length < 32) :
    (sourceBit (b :: bs) vx vy r c = sourceBit [b] vx vy r c ∧ sourceBit bs vx (vy + 1) r c = false) ∨
    (sourceBit (b :: bs) vx vy r c = sourceBit bs vx (vy + 1) r c ∧ sourceBit [b] vx vy r c = false) := by
  by_cases hr : r.val = vy % 32
  · have hfirst : (r.val + 32 - vy % 32) % 32 = 0 := by omega
    have hlater : (r.val + 32 - (vy + 1) % 32) % 32 = 31 := by omega
    left
    simp [sourceBit, hfirst, hlater, Nat.not_lt.mpr (Nat.le_of_lt_succ hlen)]
  · obtain ⟨j, hj⟩ : ∃ j, j = (r.val + 32 - (vy + 1) % 32) % 32 := ⟨_, rfl⟩
    have hsucc : (r.val + 32 - vy % 32) % 32 = j + 1 := by omega
    right
    simp [sourceBit, hsucc, ← hj]

/-- The sprite has a 1 bit on some cell exactly when one of its rows is not 0. -/
theorem exists_sourceBit (hlen : rows.length ≤ 32) :
    (∃ r c, sourceBit rows vx vy r c = true) ↔ ∃ b ∈ rows, b ≠ 0 := by
  constructor
  · rintro ⟨r, c, h⟩
    obtain ⟨hj, -, hbit⟩ := sourceBit_eq_true.mp h
    rw [List.getD_eq_getElem _ _ hj] at hbit
    refine ⟨_, List.getElem_mem hj, fun hzero => ?_⟩
    simp [hzero] at hbit
  · rintro ⟨b, hb, hne⟩
    obtain ⟨j, hj, rfl⟩ := List.getElem_of_mem hb
    obtain ⟨k, hk, hbit⟩ : ∃ k < 8, (rows[j]).getLsbD k = true := by
      by_contra! hnone
      exact hne (BitVec.eq_of_getLsbD_eq fun k hk => by simpa using hnone k hk)
    refine ⟨Fin.ofNat 32 (vy + j), Fin.ofNat 64 (vx + (7 - k)), ?_⟩
    rw [sourceBit_ofNat hj (by omega) hlen, List.getD_eq_getElem _ _ hj, Nat.sub_sub_self (by omega), hbit]

/-! ### The draw loops compute the closed form (R183, R184) -/

theorem pixel_drawRow_xor :
    (drawRow vx vy b acc).1.pixel r c = (acc.1.pixel r c ^^ sourceBit [b] vx vy r c) := by
  have hrow : (r.val + 32 - vy % 32) % 32 = 0 ↔ r.val = vy % 32 := by omega
  rw [pixel_drawRow]
  split
  next h => simp [sourceBit, hrow.mpr h.1, h.2]
  next h => simp [sourceBit, hrow, h]

theorem collided_drawRow_iff : (drawRow vx vy b acc).2 = true ↔
    acc.2 = true ∨ ∃ r c, sourceBit [b] vx vy r c = true ∧ acc.1.pixel r c = true := by
  rw [collided_drawRow]
  refine or_congr_right ⟨?_, ?_⟩
  · rintro ⟨i, hi, hbit, hpixel⟩
    exact ⟨Fin.ofNat 32 (vy + 0), _, (sourceBit_ofNat Nat.one_pos hi (by simp)).trans hbit, hpixel⟩
  · rintro ⟨r, c, hbit, hpixel⟩
    obtain ⟨hj, hi, hbit⟩ := sourceBit_eq_true.mp hbit
    replace hj := Nat.lt_one_iff.mp hj
    have hr : Fin.ofNat 32 vy = r := Fin.ext (by simp; omega)
    have hc : Fin.ofNat 64 (vx + (c.val + 64 - vx % 64) % 64) = c := Fin.ext (by simp; omega)
    rw [hj] at hbit
    exact ⟨_, hi, hbit, by rwa [hr, hc]⟩

theorem pixel_drawRows (hlen : rows.length ≤ 32) :
    (drawRows vx vy rows acc).1.pixel r c = (acc.1.pixel r c ^^ sourceBit rows vx vy r c) := by
  induction rows generalizing vy acc with
  | nil => rw [drawRows, sourceBit_nil, Bool.xor_false]
  | cons b bs ih =>
    rw [drawRows, ih (Nat.le_of_succ_le hlen), pixel_drawRow_xor]
    rcases sourceBit_cons_cases b vx vy r c hlen with ⟨hbit, hother⟩ | ⟨hbit, hother⟩ <;> simp [hbit, hother]

/-- A later row tests the pixels after the earlier rows, but these have not touched the cells that its bits land on. -/
theorem collided_drawRows (hlen : rows.length ≤ 32) : (drawRows vx vy rows acc).2 = true ↔
    acc.2 = true ∨ ∃ r c, sourceBit rows vx vy r c = true ∧ acc.1.pixel r c = true := by
  induction rows generalizing vy acc with
  | nil => simp [drawRows, sourceBit_nil]
  | cons b bs ih =>
    rw [drawRows, ih (Nat.le_of_succ_le hlen), collided_drawRow_iff, or_assoc]
    simp only [← exists_or, pixel_drawRow_xor]
    refine or_congr_right (exists_congr fun r => exists_congr fun c => ?_)
    rcases sourceBit_cons_cases b vx vy r c hlen with ⟨hbit, hother⟩ | ⟨hbit, hother⟩ <;> simp [hbit, hother]

theorem pixel_draw (fb : Grid) (hlen : rows.length ≤ 32) :
    (draw fb rows vx vy).1.pixel r c = (fb.pixel r c ^^ sourceBit rows vx vy r c) :=
  pixel_drawRows hlen

theorem collided_draw (fb : Grid) (hlen : rows.length ≤ 32) :
    (draw fb rows vx vy).2 = true ↔ ∃ r c, sourceBit rows vx vy r c = true ∧ fb.pixel r c = true :=
  (collided_drawRows hlen).trans (or_iff_right Bool.false_ne_true)

/-! ### Coordinates modulo the grid (R180, R185) -/

theorem drawRow_mod (row row' : Nat) (h : row % 32 = row' % 32) (b : Byte) (acc : Grid × Bool) :
    drawRow (vx % 64) row' b acc = drawRow vx row b acc := by
  have hbit (i : Nat) (s : Bool) (acc : Grid × Bool) : drawBit row' (vx % 64 + i) s acc = drawBit row (vx + i) s acc := by
    rw [← drawBit_mod row', ← drawBit_mod row, h, Nat.mod_add_mod]
  simp only [drawRow, hbit]

theorem drawRows_mod (vx vy vy' : Nat) (h : vy % 32 = vy' % 32) (rows : List Byte) (acc : Grid × Bool) :
    drawRows (vx % 64) vy' rows acc = drawRows vx vy rows acc := by
  induction rows generalizing vy vy' acc with
  | nil => rfl
  | cons b bs ih =>
    rw [drawRows, drawRows, drawRow_mod vy vy' h]
    exact ih (vy + 1) (vy' + 1) (by omega) _
end

/-! ### The statements -/

/-- Settles O39: the closed form with `sourceBit` written out. -/
theorem drawIsItsClosedForm : Obligations.DrawIsItsClosedForm := by
  intro fb rows vx vy hlen
  replace hlen : rows.length ≤ 32 := by omega
  refine ⟨fun r c => ?_, ?_⟩
  · intro j i
    rw [pixel_draw fb hlen, sourceBit]
    by_cases hcovered : j < rows.length ∧ i < 8
    · simp [j, i, hcovered]
    · simp [j, i, hcovered]
  · simp only [collided_draw fb hlen, sourceBit_eq_true, and_assoc]

/-- Settles O41: each pixel is XORed twice with the same source bit. -/
theorem drawingTwiceRestoresTheGrid : Obligations.DrawingTwiceRestoresTheGrid := by
  intro fb rows vx vy hlen
  replace hlen : rows.length ≤ 32 := by omega
  refine Grid.ext_pixel fun r c => ?_
  rw [pixel_draw _ hlen, pixel_draw fb hlen, Bool.xor_assoc, Bool.xor_self, Bool.xor_false]

/-- Settles O42: no pixel is set at the first draw, and at the second the pixels that are set are the sprite's 1 bits. -/
theorem secondDrawOnClearGridCollides : Obligations.SecondDrawOnClearGridCollides := by
  intro rows vx vy hlen
  replace hlen : rows.length ≤ 32 := by omega
  refine ⟨?_, ?_⟩
  · rw [← Bool.not_eq_true, collided_draw _ hlen]
    simp
  · rw [collided_draw _ hlen, ← exists_sourceBit (vx := vx.toNat) (vy := vy.toNat) hlen]
    simp only [pixel_draw _ hlen, Grid.pixel_clear, Bool.false_xor, and_self]

/-- Settles O43, for sprites of any length, by induction on the rows. -/
theorem drawIsPeriodic : Obligations.DrawIsPeriodic := fun _ _ _ _ =>
  (drawRows_mod _ _ _ (Nat.mod_mod _ _).symm _ _).symm

/-- Settles O38: the new grid is `Grid.clear`, and CLS lists the grid and PC only. -/
theorem clearScreenClearsEveryPixel : Obligations.ClearScreenClearsEveryPixel := fun _ =>
  ⟨_, rfl, Grid.pixel_clear, movesPc_two rfl, changesOnly_of_exec (i := .cls) rfl rfl rfl⟩

end Sys2Proof.Machine
end

