-- ==== Sys2Proof/Proofs/KeysTimers.lean ====
section
/-! PROOF. The statements about the key and timer instructions (45_keys_timers.md): the key skips, the timer moves, the wait of
LD Vx, K, and the key that it stores. -/

namespace Sys2Proof.Machine

/-! ### The key skips (R200, R201, R227) -/

theorem keySkip_of_key {x : Reg} {s : State} {k : Key} (h : (s.reg x).toNat = k.val) (i : Instr) (skipOn : Bool → Bool) :
    keySkip i x skipOn s = .next (s.skipIf (skipOn s.keys[k.val])) := by
  simp only [keySkip, h, k.isLt, dite_true]

theorem keySkip_of_not_key {x : Reg} {s : State} (h : 15 < (s.reg x).toNat) (i : Instr) (skipOn : Bool → Bool) :
    keySkip i x skipOn s = .next (s.latch ⟨.keyIndexFault, some (encodeWord i), s.pc, some (s.reg x).toNat⟩) :=
  dif_neg (Nat.not_lt.2 h)

/-- Settles O44: SKP skips on the flag of the key and SKNP on its negation, and each rule lists PC only. -/
theorem keySkipsReadOneFlagOrFault : Obligations.KeySkipsReadOneFlagOrFault := by
  intro x s
  refine ⟨fun k hk => ?_, fun hx =>
    ⟨keySkip_of_not_key hx (.skp x) fun pressed => pressed, keySkip_of_not_key hx (.sknp x) fun pressed => !pressed, rfl⟩⟩
  have hskp : exec (.skp x) s = .next (s.skipIf s.keys[k.val]) := keySkip_of_key hk _ fun pressed => pressed
  have hsknp : exec (.sknp x) s = .next (s.skipIf !s.keys[k.val]) := keySkip_of_key hk _ fun pressed => !pressed
  refine ⟨⟨_, hskp, movesPc_skipIf s rfl, changesOnly_of_exec hskp rfl rfl⟩,
    ⟨_, hsknp, movesPc_skipIf s ?_, changesOnly_of_exec hsknp rfl rfl⟩⟩
  cases s.keys[k.val] <;> rfl

/-! ### The timer moves (R202 to R204) -/

/-- Settles O45: a write of `Vx`, and two instructions whose rules list their timer and PC only. -/
theorem timerMovesCopyOneByte : Obligations.TimerMovesCopyOneByte := fun x _ =>
  ⟨⟨_, rfl, State.reg_setReg_self .., frame_setReg_advance ..⟩,
    ⟨_, rfl, rfl, movesPc_two rfl, changesOnly_of_exec (i := .ldDtVx x) rfl rfl rfl⟩,
    ⟨_, rfl, rfl, movesPc_two rfl, changesOnly_of_exec (i := .ldStVx x) rfl rfl rfl⟩⟩

/-! ### The wait for a key (R210, R211) -/

theorem execLdVxK_of_not_pressed {s : State} (h : ∀ k : Key, s.keys[k.val] = false) (x : Reg) :
    execLdVxK x s = .next { s with out := .wait } := by
  have hnone : s.pressed = [] := List.eq_nil_iff_forall_not_mem.2 fun k hk =>
    Bool.false_ne_true ((h k).symm.trans ((mem_pressed s k).1 hk))
  simp only [execLdVxK, hnone]

/-- The running machine is at LD Vx, K and no key is pressed. -/
structure State.WaitsForKey (s : State) (x : Reg) : Prop where
  running : s.running
  reachable : s.pc.toNat ≤ 0xFFE
  atLdVxK : decodeWord s.nextWord = .ok (.ldVxK x)
  noKey : ∀ k : Key, s.keys[k.val] = false

/-- The state that a Step leaves which has waited (R211; logs 2, 3, 4, 16). -/
def State.waited (s : State) : State := { s.taken with out := .wait, started := true }

theorem State.WaitsForKey.step {s : State} {x : Reg} (h : s.WaitsForKey x) (hdue : s.stepsNext) :
    step s = .next s.waited := by
  have hkeys : ∀ k : Key, s.taken.beginStep.keys[k.val] = false := by simpa using h.noKey
  rw [step_runs_nextWord h.running hdue h.reachable, runWord_of_decode_ok h.atLdVxK]
  exact execLdVxK_of_not_pressed hkeys x

theorem State.WaitsForKey.waited {s : State} {x : Reg} (h : s.WaitsForKey x) : s.waited.WaitsForKey x := by
  obtain ⟨hrun, hpc, hword, hkeys⟩ := h
  exact ⟨State.running_taken hrun, by simpa [State.waited] using hpc, by simpa [State.waited, State.nextWord] using hword,
    by simpa [State.waited] using hkeys⟩

/-- Taking an action off the list or the schedule keeps the two fields that a wait writes. -/
theorem State.waited_waited (s : State) : s.waited.waited = s.waited.taken := by
  have hout : s.waited.taken.out = .wait := s.waited.taken_out
  have hstarted : s.waited.taken.started = true := s.waited.taken_started
  rw [State.waited, ← hout, ← hstarted]

/-- Settles O46: the state after a wait waits again, and its wait changes nothing more. -/
theorem keyWaitChangesNothingUntilAKey : Obligations.KeyWaitChangesNothingUntilAKey := by
  intro x s hrun hdue hpc hword hkeys
  have hwaits : s.WaitsForKey x := ⟨hrun, hpc, hword, hkeys⟩
  refine ⟨s.waited, hwaits.step hdue, rfl, fun hagain => ?_⟩
  rw [hwaits.waited.step hagain, State.waited_waited]

/-! ### The key that LD Vx, K stores (R210, R212) -/

/-- With a key pressed, LD Vx, K takes a pressed key, whether it is the only one or the free choice among several; only the count of
draws tells the two apart. -/
theorem execLdVxK_of_pressed {s : State} {k : Key} (hk : s.keys[k.val] = true) (x : Reg) :
    ∃ l draws, s.keys[l.val] = true ∧ execLdVxK x s = .next { s.takeKey x l with draws := draws } := by
  rcases execLdVxK_cases x s with ⟨hnone, _⟩ | ⟨l, hone, htake⟩ | ⟨l, l', ls, hmany, htake⟩
  · exact absurd (hnone ▸ (mem_pressed s k).2 hk) List.not_mem_nil
  · exact ⟨l, _, (mem_pressed s l).1 (by simp [hone]), htake⟩
  · exact ⟨_, _, (mem_pressed s _).1 (hmany ▸ pickFrom_mem s l (l' :: ls)), htake⟩

theorem toNat_reg_takeKey (s : State) (x : Reg) (k : Key) : ((s.takeKey x k).reg x).toNat = k.val := by
  rw [State.takeKey, State.reg_advance, State.reg_setReg_self, BitVec.toNat_ofNat]
  exact Nat.mod_eq_of_lt (by omega)

/-- Settles O47: the key taken is pressed, so it is `k` where no other key is. -/
theorem keyWaitStoresAPressedKey : Obligations.KeyWaitStoresAPressedKey := by
  intro x s k hk
  obtain ⟨l, draws, hl, htake⟩ := execLdVxK_of_pressed hk x
  have hexec : exec (.ldVxK x) s = .next { s.takeKey x l with draws := draws } := htake
  exact ⟨_, l.val, hexec, l.isLt, ⟨l, rfl, hl⟩, toNat_reg_takeKey s x l, fun honly => congrArg Fin.val (honly l hl),
    fun r hr => exec_keeps_regs hexec r (hr ∘ beq_iff_eq.1), movesPc_two rfl, changesOnly_of_exec hexec rfl rfl⟩

end Sys2Proof.Machine
end

