-- ==== Sys2Proof/Proofs/Exceptions.lean ====
section
/-! PROOF. The statements about exceptions (60_exceptions.md): the precision of an instruction's faults, and the timer agent's Tick
with its tone signal. -/

namespace Sys2Proof.Machine

/-! ### Precise faults (R221, R222) -/

/-- Settles O15: an instruction latches a record only by raising a fault, which records PC and the instruction's own word. -/
theorem faultsArePrecise : Obligations.FaultsArePrecise := by
  intro i s t hrun hexec r hr
  obtain ⟨c, n, rfl⟩ := exec_latches_by_raise hrun hexec hr
  cases hr
  exact ⟨rfl, rfl, rfl⟩

/-! ### The Tick (R234 to R236) -/

/-- A timer at 0 stays there, as subtraction on the naturals does (R235). -/
theorem toNat_countDown (b : Byte) : (countDown b).toNat = b.toNat - 1 := by
  by_cases h : b.toNat > 0
  · have hone : 1 ≤ b := BitVec.le_def.2 h
    rw [countDown, if_pos h, BitVec.toNat_sub_of_le hone]
    rfl
  · rw [countDown, if_neg h]
    omega

/-- A Tick signals exactly when ST was 1 (R236). -/
theorem tick_out_eq_tonePulse_iff (s : State) : (tick s).out = .tonePulse ↔ s.st.toNat = 1 := by
  have hone : s.st = 1 ↔ s.st.toNat = 1 := BitVec.toNat_inj.symm
  rw [tick_out, ← hone]
  by_cases h : s.st = 1
  · exact iff_of_true (if_pos h) h
  · rw [if_neg h]
    exact iff_of_false nofun h

/-- Settles O48: the served Tick counts both timers of `s` down, and `taken` keeps them. -/
theorem tickCountsDownAndSignalsOnce : Obligations.TickCountsDownAndSignalsOnce := by
  intro s hdue
  have hdt : (tick s.taken).dt.toNat = s.dt.toNat - 1 := by rw [tick_dt, toNat_countDown, State.taken_dt]
  have hst : (tick s.taken).st.toNat = s.st.toNat - 1 := by rw [tick_st, toNat_countDown, State.taken_st]
  have htone : (tick s.taken).out = .tonePulse ↔ s.st.toNat = 1 := by rw [tick_out_eq_tonePulse_iff, State.taken_st]
  exact ⟨_, step_due hdue, hdt, hst, htone, by simp [changesOnly_iff]⟩

/-! ### No other source of the tone signal (R236) -/

/-- The engine's Step answers `next`, `wait` or a fault, and no tone (R11). -/
theorem engineStep_out_ne_tonePulse {s t : State} (h : engineStep s = .next t) : t.out ≠ .tonePulse := by
  cases hlatch : s.fault with
  | some r => cases (engineStep_of_latched hlatch).symm.trans h
  | none =>
    obtain ⟨_, hu, houtcome⟩ := engineStep_outcomes hlatch
    cases hu.symm.trans h
    rcases houtcome with ⟨hnext, _⟩ | rfl | ⟨r, rfl⟩
    · rw [hnext]
      exact nofun
    · exact nofun
    · exact nofun

/-- A Load answers nothing (R264). -/
theorem load_out_eq_silent {image : List Byte} {s t : State} (h : load image s = .next t) : t.out = .silent := by
  rcases load_cases image s with ⟨_, _, _, hload⟩ | ⟨_, hrefused⟩
  · cases hload.symm.trans h
    rfl
  · cases hrefused.symm.trans h

/-- Of the actions, only a Tick answers the tone signal (R236). -/
theorem eq_tick_of_serve_tonePulse {r : Request} {s t : State} (h : serve r s = .next t) (htone : t.out = .tonePulse) :
    r = .tick := by
  cases r with
  | tick => rfl
  | step => exact absurd htone (engineStep_out_ne_tonePulse h)
  | load image => cases (load_out_eq_silent h).symm.trans htone
  | reset p => cases h; cases htone
  | setKey k pressed => cases h; cases htone
  | snapshot => cases h; cases htone

/-- Settles O49: the action is a Tick, whose effect on ST and whose signal are those of O48. -/
theorem toneSignalComesOnlyFromATick : Obligations.ToneSignalComesOnlyFromATick := by
  intro s t hstep htone
  have hdue : s.due = .tick := eq_tick_of_serve_tonePulse hstep htone
  obtain ⟨_, htick, _, hcount, hsignal, _⟩ := tickCountsDownAndSignalsOnce s hdue
  cases htick.symm.trans hstep
  have hone : s.st.toNat = 1 := hsignal.1 htone
  exact ⟨hdue, hone, by rw [hcount, hone]⟩

end Sys2Proof.Machine
end

