-- ==== Sys2Proof/Proofs/ResetAndHazards.lean ====
section
/-! PROOF. The statements about reset and loading (70_reset_and_hazards.md): the image that Load stores, and its refusals. -/

namespace Sys2Proof.Machine

/-! ### Load (R264, R265) -/

/-- An image that fits, on a machine that is neither faulted nor has stepped, is stored at 0x200 up (R264). -/
theorem load_of_accepted {image : List Byte} {s : State} (hlen : image.length ≤ 3584) (hrun : s.fault = none)
    (hfresh : s.started = false) : load image s = .next { s with mem := s.mem.pokes 0x200 image, out := .silent } := by
  simp [load, hrun, hfresh, Nat.not_lt.2 hlen]

/-- Each limit of R265, overstepped, refuses the image. -/
theorem load_refused_of_limit {image : List Byte} {s : State}
    (hlimit : 3584 < image.length ∨ s.fault ≠ none ∨ s.started = true) : ∃ r, load image s = .refused r := by
  rcases load_cases image s with ⟨hlen, hrun, hfresh, _⟩ | hrefused
  · rcases hlimit with hlong | hfaulted | hstarted
    · exact absurd hlen (Nat.not_le.2 hlong)
    · exact absurd hrun hfaulted
    · exact absurd hstarted (ne_true_of_eq_false hfresh)
  · exact hrefused

/-- Settles O52: an image of at most 3584 bytes at 0x200 ends below 0x1000, so every byte of it lands. -/
theorem loadStoresTheImageOrIsRefused : Obligations.LoadStoresTheImageOrIsRefused := by
  intro s image hdue
  rw [step_due hdue]
  constructor
  · intro hmem hlen hrun hfresh
    refine ⟨_, load_of_accepted hlen (s.taken_fault.trans hrun) (s.taken_started.trans hfresh), fun j hj => ?_,
      fun a ha => ?_, by simp [changesOnly_iff]⟩
    · rw [State.taken_mem]
      exact Memory.peek_pokes_inside hmem (by omega) hj
    · rw [State.taken_mem]
      exact Memory.peek_pokes_outside _ _ (by omega)
  · rw [← s.taken_fault, ← s.taken_started]
    exact load_refused_of_limit

end Sys2Proof.Machine
end
